-- ==== Sys2Proof/Word.lean ====
section
/-! DEFINITION. The word types of the CAN frame parser: a byte of a buffer and a command word
(spec/00_scope.md R12, spec/30_encoding.md R80). Everything else is a bit vector of its register's own
width (spec/10_state.md R22) or a natural number (spec/00_scope.md R11). -/

namespace Sys2Proof

/-- One byte of a buffer; bit 0 is its least significant bit (R12). -/
abbrev Byte := BitVec 8

/-- The 32-bit word that a host write to `CMD` carries (R80). -/
abbrev Word := BitVec 32

end Sys2Proof
end

