-- ==== Sys2Proof/Machine/Bits.lean ====
section
/-! DEFINITION. The operators of spec/00_scope.md R12 and R13 on natural numbers, and the little-endian value of
a sequence of bytes (spec/20_memory.md R61). Arithmetic is exact (R11, R118). -/

namespace Sys2Proof.Machine

/-- `v[hi:lo] = floor(v / 2^lo) mod 2^(hi-lo+1)` (R12). -/
def bits (v hi lo : Nat) : Nat := v / 2 ^ lo % 2 ^ (hi - lo + 1)

/-- `mask(n) = 2^n - 1`, also for `n = 64` (R13). -/
def mask (n : Nat) : Nat := 2 ^ n - 1

/-- `sext_N(v, n)`: sign extension of the `n`-bit value `v mod 2^n` to `N` bits (R13); `1 <= n <= N`. -/
def sext (N v n : Nat) : Nat :=
  if bits v (n - 1) (n - 1) = 0 then v % 2 ^ n else v % 2 ^ n + 2 ^ N - 2 ^ n

/-- `signed_N(v)`: the integer an `N`-bit pattern stands for (R13). -/
def signed (N v : Nat) : Int := if v < 2 ^ (N - 1) then (v : Int) else (v : Int) - 2 ^ N

/-- The little-endian value of a sequence of bytes: the first byte is the least significant (R61, R14). -/
def leValue : List Byte → Nat
  | [] => 0
  | b :: rest => b.toNat + 2 ^ 8 * leValue rest

end Sys2Proof.Machine
end

