-- ==== Sys2Proof/Syntax.lean ====
section
/-! DEFINITION. The fourteen commands of the CAN frame parser (spec/30_encoding.md R82), one constructor per row
of spec/opcode_table.json. Operands are natural numbers, taken from the word as they stand (R88). -/

namespace Sys2Proof

/-- A command with its operands (R82 to R87). -/
inductive Instr where
  /-- `NOP`, format N (R190). -/
  | nop
  /-- `CLRFB`, format N (R191). -/
  | clrfb
  /-- `MOVMF k`, format K (R192). -/
  | movmf (k : Nat)
  /-- `MOVFM k`, format K (R193). -/
  | movfm (k : Nat)
  /-- `XBITS byteIndex, bitIndex, lengthBits`, format B (R112). -/
  | xbits (byteIndex bitIndex lengthBits : Nat)
  /-- `PBITS byteIndex, bitIndex, lengthBits`, format B (R114). -/
  | pbits (byteIndex bitIndex lengthBits : Nat)
  /-- `SEXT lengthBits`, format L (R116). -/
  | sext (lengthBits : Nat)
  /-- `LKIDX`, format N (R132). -/
  | lkidx
  /-- `LKENT`, format N (R133). -/
  | lkent
  /-- `ENC`, format N (R146). -/
  | enc
  /-- `DEC`, format N (R152). -/
  | dec
  /-- `XSIG d`, format D (R176). -/
  | xsig (d : Nat)
  /-- `SIGLOC d`, format D (R178). -/
  | sigloc (d : Nat)
  /-- `PHYS d`, format D (R180). -/
  | phys (d : Nat)
deriving DecidableEq, Repr

/-- The mnemonic of a command, as the opcode table spells it (R82). -/
def Instr.mnemonic : Instr → String
  | .nop => "NOP"
  | .clrfb => "CLRFB"
  | .movmf _ => "MOVMF"
  | .movfm _ => "MOVFM"
  | .xbits _ _ _ => "XBITS"
  | .pbits _ _ _ => "PBITS"
  | .sext _ => "SEXT"
  | .lkidx => "LKIDX"
  | .lkent => "LKENT"
  | .enc => "ENC"
  | .dec => "DEC"
  | .xsig _ => "XSIG"
  | .sigloc _ => "SIGLOC"
  | .phys _ => "PHYS"

end Sys2Proof
end

