-- ==== Sys2Proof/WellFormed.lean ====
section
/-! DEFINITION. When a command's operands fit their fields (spec/30_encoding.md R101, R84 to R87). An operand that
fits and that the command will refuse (a length of 0, a message index of 6) is well formed. -/

namespace Sys2Proof

/-- R101: the assembler rejects an operand that does not fit its field. -/
def Instr.wellFormed : Instr → Bool
  | .nop | .clrfb | .lkidx | .lkent | .enc | .dec => true
  | .movmf k | .movfm k => decide (k ≤ 7)
  | .xbits byteIndex bitIndex lengthBits | .pbits byteIndex bitIndex lengthBits =>
    decide (byteIndex ≤ 255) && decide (bitIndex ≤ 7) && decide (lengthBits ≤ 127)
  | .sext lengthBits => decide (lengthBits ≤ 127)
  | .xsig d | .sigloc d | .phys d => decide (d ≤ 255)

/-- The same as a proposition, the form in which statements use it. -/
abbrev Instr.WellFormed (i : Instr) : Prop := i.wellFormed = true

end Sys2Proof
end

