-- ==== Sys2Proof/Decode.lean ====
section
/-! DEFINITION. The command word (spec/30_encoding.md sections 1 to 3): decoding, total on every 32-bit word and
rejecting by name, and after it the encoder, written from the same tables. -/

namespace Sys2Proof

open Sys2Proof.Machine (bits)

/-- The five formats (R81). -/
inductive Format where
  | n | b | l | k | d
deriving DecidableEq, Repr

/-- Why a word is no command; both cases raise `IllegalCommand` (R80, R89). -/
inductive DecodeError where
  /-- The opcode is none of the fourteen of R82. -/
  | unknownOpcode
  /-- A bit that the format reserves is 1. -/
  | reservedBitSet
deriving DecidableEq, Repr

/-- The bits of the 32-bit word that a format reserves, opcode bits apart (R81). -/
def reservedMask : Format → Nat
  | .n => 0x00FFFFFF
  | .b => 0x0000F880
  | .l => 0x00FFFF80
  | .k => 0x00FFFFF8
  | .d => 0x00FFFF00

/-- `byteIndex = w[23:16]` (R84). -/
def byteIndexField (w : Nat) : Nat := bits w 23 16
/-- `bitIndex = w[10:8]` (R84). -/
def bitIndexField (w : Nat) : Nat := bits w 10 8
/-- `lengthBits = w[6:0]` (R84, R85). -/
def lengthField (w : Nat) : Nat := bits w 6 0
/-- `k = w[2:0]` (R86). -/
def messageField (w : Nat) : Nat := bits w 2 0
/-- `d = w[7:0]` (R87). -/
def descriptorField (w : Nat) : Nat := bits w 7 0

/-- One row of the opcode map (R82): the opcode, the format, and the command its operand fields make. -/
structure OpRow where
  opcode : Nat
  format : Format
  build  : Nat → Instr

/-- The opcode map (R82). -/
def opRows : List OpRow := [
  ⟨0x00, .n, fun _ => .nop⟩,
  ⟨0x01, .n, fun _ => .clrfb⟩,
  ⟨0x02, .k, fun w => .movmf (messageField w)⟩,
  ⟨0x03, .k, fun w => .movfm (messageField w)⟩,
  ⟨0x10, .b, fun w => .xbits (byteIndexField w) (bitIndexField w) (lengthField w)⟩,
  ⟨0x11, .b, fun w => .pbits (byteIndexField w) (bitIndexField w) (lengthField w)⟩,
  ⟨0x12, .l, fun w => .sext (lengthField w)⟩,
  ⟨0x20, .n, fun _ => .lkidx⟩,
  ⟨0x21, .n, fun _ => .lkent⟩,
  ⟨0x30, .n, fun _ => .enc⟩,
  ⟨0x31, .n, fun _ => .dec⟩,
  ⟨0x40, .d, fun w => .xsig (descriptorField w)⟩,
  ⟨0x41, .d, fun w => .sigloc (descriptorField w)⟩,
  ⟨0x42, .d, fun w => .phys (descriptorField w)⟩]

/-- The core decodes a word written to `CMD`: the opcode first, then the reserved bits, then the operand fields
(R80). It depends on the word alone. -/
def decode (w : Word) : Except DecodeError Instr :=
  match opRows.find? (fun row => row.opcode == bits w.toNat 31 24) with
  | none => .error .unknownOpcode
  | some row =>
    if w.toNat &&& reservedMask row.format = 0 then .ok (row.build w.toNat)
    else .error .reservedBitSet

/-- The opcode of a command (R82). -/
def Instr.opcode : Instr → Nat
  | .nop => 0x00
  | .clrfb => 0x01
  | .movmf _ => 0x02
  | .movfm _ => 0x03
  | .xbits _ _ _ => 0x10
  | .pbits _ _ _ => 0x11
  | .sext _ => 0x12
  | .lkidx => 0x20
  | .lkent => 0x21
  | .enc => 0x30
  | .dec => 0x31
  | .xsig _ => 0x40
  | .sigloc _ => 0x41
  | .phys _ => 0x42

/-- A BitField in the layout of a format B operand, which is also the layout of `LOC` (R84, R36). -/
def fieldOperand (byteIndex bitIndex lengthBits : Nat) : Nat :=
  byteIndex <<< 16 ||| bitIndex <<< 8 ||| lengthBits

/-- The operand bits of a command (R100). -/
def Instr.operand : Instr → Nat
  | .nop | .clrfb | .lkidx | .lkent | .enc | .dec => 0
  | .movmf k | .movfm k => k
  | .xbits byteIndex bitIndex lengthBits | .pbits byteIndex bitIndex lengthBits =>
    fieldOperand byteIndex bitIndex lengthBits
  | .sext lengthBits => lengthBits
  | .xsig d | .sigloc d | .phys d => d

/-- The command word `op << 24 | fields` (R100). -/
def encode (i : Instr) : Word := BitVec.ofNat 32 (i.opcode <<< 24 ||| i.operand)

/-- The instruction the decoder reads from an instruction of `nbits` bits `w`, numbered as the opcode table numbers
them. A command word is one 32-bit word (R80); a number above 32 bits is no word. -/
def decodeTableWord (nbits w : Nat) : Option Instr :=
  if w % 2 ^ nbits < 2 ^ 32 then
    match decode (BitVec.ofNat 32 (w % 2 ^ nbits)) with
    | .ok i => some i
    | .error _ => none
  else none

end Sys2Proof
end

