-- ==== Sys2Proof/Config.lean ====
section
/-! DEFINITION. What is fixed when the block is built and what the spec leaves open: the parameters of
spec/00_scope.md R9, the record formats of the two configuration memories (spec/30_encoding.md R95, R96),
and the open values, each an opaque constant without a body so that no proof can see what it is. -/

namespace Sys2Proof

/-- A catalog entry: a definition with no occurrence count (R42, R95). -/
structure CatEntry where
  spn : BitVec 32
  fmi : BitVec 8
deriving DecidableEq, Repr, Inhabited

/-- The kind of a signal: 0 `Integer`, 1 `FloatScaled` (R96). -/
inductive ValueKind where
  | integer
  | floatScaled
deriving DecidableEq, Repr, Inhabited

/-- One row of a telegram descriptor; `byte1` and `bit1` are 1-based (R96). -/
structure Signal where
  name       : BitVec 64
  byte1      : BitVec 8
  bit1       : BitVec 4
  lengthBits : BitVec 7
  scaling    : BitVec 32
  offset     : BitVec 32
  kind       : ValueKind
deriving DecidableEq, Repr, Inhabited

/-- A telegram descriptor; `ident`, `period` and `timeout` are stored and interpreted by nothing (R96).
The number of signals `nsig` is the length of `sigs`. -/
structure Descriptor where
  ident    : BitVec 32
  lenBytes : BitVec 8
  period   : BitVec 32
  timeout  : BitVec 32
  sigs     : List Signal
deriving DecidableEq, Repr, Inhabited

namespace Config

/-- `BUFCAP`, the bytes of the frame buffer: 8 for this hardware (R9, D7; log 7). -/
abbrev bufCap : Nat := 8

/-- `BUFCAP >= MSGBYTES = 8`: one encoded message fits the frame buffer (R10). -/
theorem msgBytes_le_bufCap : 8 ≤ bufCap := by decide

/-- `CATMAX`, the largest catalog size (R9). -/
@[simp] abbrev catMax : Nat := 1024

/-- The largest number of descriptors (R9, R27). -/
@[simp] abbrev descMax : Nat := 256

/-- The absent-slot sentinel `SENT10` (R9, R94). -/
@[simp] abbrev sent10 : Nat := 0x3FF

/-- The legacy 16-bit sentinel `SENT16` (R9, R94). -/
@[simp] abbrev sent16 : Nat := 0xFFFF

/-- `PhysFloat` of R182: some function of the raw value, the scaling pattern and the offset pattern. The spec
states nothing else of it (D30; log 8), so it has no body. -/
opaque physFloat : (raw : BitVec 64) → (scaling offset : BitVec 32) → BitVec 32

/-- The configured catalog contents, OPEN in the spec (D14; log 4). -/
opaque catalogContents : List CatEntry

/-- The configured descriptors, OPEN in the spec (D26; log 4). -/
opaque descriptorContents : List Descriptor

/-- The catalog the block is built with: any contents that keep `CATLEN <= 1024` (R10, R42; log 4). -/
def catalog : List CatEntry := catalogContents.take catMax

/-- The descriptor table the block is built with: any contents that keep `NDESC <= 256` (R27, R43; log 4). -/
def descriptors : List Descriptor := descriptorContents.take descMax

/-- What the storage location with register number `number` holds after the `n`-th reset of a run, where R220
calls it unspecified: any value (R224, U9; log 3). -/
opaque unspecified : (n number : Nat) → Nat

end Config

end Sys2Proof
end

