-- ==== Sys2Proof/Machine/State.lean ====
section
/-! DEFINITION. The state of the CAN frame parser (spec/10_state.md), the host's transactions
(spec/20_memory.md section 4), the error kinds (spec/60_exceptions.md R200), and the state after reset
(spec/70_reset_and_hazards.md R220). State is plain data. -/

namespace Sys2Proof.Machine

/-- The fatal error kinds: each ends the command with nothing written but the code (R200, R203). -/
inductive ErrorKind where
  | outOfRange
  | invalidLength
  | catalogIndexOutOfRange
  | illegalCommand
  | badOperand
  | signalNotFound
  | badDescriptor
  | listOverflow
deriving DecidableEq, Repr

/-- The ten values of `STATUS.CODE` (R200; U12: a model's status type has ten values). -/
inductive Status where
  | ok
  /-- The only warning kind (R204). -/
  | notFound
  | fatal (e : ErrorKind)
deriving DecidableEq, Repr

/-- One entry of the active DTC list (R41, R95). -/
structure DtcEntry where
  spn : BitVec 32
  fmi : BitVec 8
  occ : BitVec 32
deriving DecidableEq, Repr, Inhabited

/-- A field of a byte buffer, 0-based (R91). -/
structure BitField where
  byteIndex  : Nat
  bitIndex   : Nat
  lengthBits : Nat
deriving DecidableEq, Repr

/-- What `physicalValue` returns: an exact integer, or the 32-bit pattern of a float (R179). -/
inductive PhysicalValue where
  | integer (value : Int)
  | float (pattern : BitVec 32)
deriving DecidableEq, Repr

/-- The fate of one slot in decoding (R151). -/
inductive SlotFate where
  /-- One of the two sentinels: skipped. -/
  | absent
  /-- No catalog entry at that index: skipped and counted. -/
  | beyondCatalog
  /-- A valid index: its entry is appended. -/
  | found (e : CatEntry)
deriving DecidableEq, Repr

/-- The result of `decode`, with the number of slots it skipped and counted (R150, R151, R38). -/
structure Decoded where
  lamps   : BitVec 4
  entries : List CatEntry
  skipped : Nat
deriving DecidableEq, Repr

/-- The registers of R22, by name. -/
inductive Reg where
  | cmd | status | ctrl | flen | catlen | ndesc | adlcnt | msgcnt
  | val | res | spn | fmi | idx | name | lamps | loc | pvi | pvf | pvk | enfcnt | dskip
  | fb (i : Fin Config.bufCap)
  | msg (k : Fin 5) (i : Fin 8)
  | adlSpn (i : Fin 20)
  | adlFmi (i : Fin 20)
  | adlOcc (i : Fin 20)
deriving DecidableEq, Repr

/-- The host's access to a register (R22). -/
inductive Access where
  | rw | ro | wo
deriving DecidableEq, Repr

/-- What the host can do between two commands (R67, R69, R220): write a register by its number, read one, reset. -/
inductive HostEvent where
  | wr (number value : Nat)
  | rd (number : Nat)
  | reset
deriving DecidableEq, Repr

/-- The machine state of the CFP: the registers, the buffers and the list (R20, R22, R39 to R41). `CMD` is not stored
(R23). It holds neither configuration nor the host's program (R46). -/
structure CfpState where
  /-- `STATUS` (R24). -/
  status : Status
  /-- `CTRL`, bit 0 is `CEILCNT` (R25). -/
  ctrl : BitVec 1
  /-- `FLEN` (R26). -/
  flen : BitVec 8
  /-- `ADLCNT` (R28). -/
  adlcnt : BitVec 5
  /-- `MSGCNT` (R29). -/
  msgcnt : BitVec 3
  /-- `VAL` (R30). -/
  val : BitVec 64
  /-- `RES` (R31). -/
  res : BitVec 64
  /-- `SPN` (R32). -/
  spn : BitVec 32
  /-- `FMI` (R32). -/
  fmi : BitVec 8
  /-- `IDX` (R33). -/
  idx : BitVec 16
  /-- `NAME` (R34). -/
  name : BitVec 64
  /-- `LAMPS` (R35). -/
  lamps : BitVec 4
  /-- `LOC` (R36). -/
  loc : BitVec 24
  /-- `PVI` (R37). -/
  pvi : BitVec 66
  /-- `PVF` (R37). -/
  pvf : BitVec 32
  /-- `PVK` (R37). -/
  pvk : BitVec 1
  /-- `ENFCNT` (R38). -/
  enfcnt : BitVec 5
  /-- `DSKIP` (R38). -/
  dskip : BitVec 5
  /-- `FB`, the frame buffer (R39). -/
  fb : Vector Byte Config.bufCap
  /-- `MSG`, the message bank (R40). -/
  msg : Vector (Vector Byte 8) 5
  /-- `ADL`, the active DTC list (R41). -/
  adl : Vector DtcEntry 20
deriving DecidableEq, Repr

/-- The configuration memories (R20, R42, R43): configuration, and so an argument of every command and no part of
`CfpState` (R46). `CATLEN` and `NDESC` are views of them (R27); `BUFCAP` and `PhysFloat` are in `Config`. -/
structure Configuration where
  /-- `CAT`, the catalog (R42); nothing writes it. -/
  cat : List CatEntry
  /-- `DESC`, the descriptor table (R43); nothing writes it. -/
  desc : List Descriptor
deriving DecidableEq, Repr

/-- The host's side, which is neither state of the CFP nor configuration (R46): the model's own. -/
structure HostSide where
  /-- The host's transactions not yet performed, next first (the host's program and the index into it; log 1). -/
  pending : List HostEvent
  /-- Register number and value of every read performed, newest first (output; log 5). -/
  received : List (Nat × Nat)
  /-- How many resets the run has performed (log 3). -/
  resets : Nat
deriving DecidableEq, Repr

/-- What a step runs over. The interface `Host.Core` gives `step` one argument, so the three things that R46 tells
apart stand here side by side: the machine state of the CFP, its configuration, and the host's side (log 15). -/
structure State extends CfpState, Configuration, HostSide
deriving DecidableEq, Repr

/-- The CFP has no fault: no trap and no halt (R208, R232). An error of a command is a code in `STATUS` and a next
state (R203), so nobody raises a fault. -/
inductive Fault : Type
deriving DecidableEq, Repr

/-- Why a step has no meaning. -/
inductive Refusal where
  /-- An instruction without a meaning in this model; no arm of `exec` answers it. Safe. -/
  | notModelled (mnemonic : String)
  /-- Raised by a host read or write of a register number that R22 does not map: outside the interface, "a model
  refuses it" (R69, U10). Safe. -/
  | unmappedRegister (number : Nat)
  /-- Raised by a host write of a value that does not fit the register's width, which "is not a transaction"
  (R67, R75). Safe. -/
  | valueTooWide (number value : Nat)
deriving DecidableEq, Repr

/-- The machine right after reset (R220). Every register that R220 calls unspecified is 0 here: DESIGN CHOICE,
unsafe, log 2. The configuration memories hold their configured contents (R221, log 4). -/
def State.reset : State where
  status := .ok
  ctrl := 0
  flen := 0
  adlcnt := 0
  msgcnt := 0
  val := 0
  res := 0
  spn := 0
  fmi := 0
  idx := 0
  name := 0
  lamps := 0
  loc := 0
  pvi := 0
  pvf := 0
  pvk := 0
  enfcnt := 0
  dskip := 0
  fb := Vector.replicate Config.bufCap 0
  msg := Vector.replicate 5 (Vector.replicate 8 0)
  adl := Vector.replicate 20 ⟨0, 0, 0⟩
  cat := Config.catalog
  desc := Config.descriptors
  pending := []
  received := []
  resets := 0

end Sys2Proof.Machine
end

