-- ==== Sys2Proof/Machine/Flags.lean ====
section
/-! DEFINITION. The one status a command leaves (spec/10_state.md R24, R44: the CFP has no flags and no condition
codes): the number in `STATUS.CODE` for each outcome (spec/60_exceptions.md R200). -/

namespace Sys2Proof.Machine

/-- The code of a fatal error kind (R200). -/
def ErrorKind.code : ErrorKind → BitVec 4
  | .outOfRange => 1
  | .invalidLength => 2
  | .catalogIndexOutOfRange => 4
  | .illegalCommand => 5
  | .badOperand => 6
  | .signalNotFound => 7
  | .badDescriptor => 8
  | .listOverflow => 9

/-- `STATUS.CODE` (R200). -/
def Status.code : Status → BitVec 4
  | .ok => 0
  | .notFound => 3
  | .fatal e => e.code

end Sys2Proof.Machine
end

