-- ==== Sys2Proof/Machine/Ops.lean ====
section
/-! DEFINITION. The named operations: bytes of a buffer (spec/00_scope.md R14), the register map and the host's
view of it (spec/10_state.md R22), and how a command ends, with its result or with an error
(spec/60_exceptions.md R203). -/

namespace Sys2Proof.Machine

/-! ### Byte buffers -/

/-- `MemRead(S, i, n)`: the little-endian value of `n` bytes from index `i` (R14, R61). -/
def memRead {len : Nat} (buf : Vector Byte len) (i n : Nat) : Nat :=
  leValue ((buf.toList.drop i).take n)

/-- `MemWrite(S, i, n, v)`: byte `i + j` becomes `(v >> 8j) & 0xFF` for `j < n` (R14). -/
def memWrite {len : Nat} (buf : Vector Byte len) (i n v : Nat) : Vector Byte len :=
  buf.mapIdx fun p old => if i ≤ p ∧ p < i + n then BitVec.ofNat 8 (v >>> (8 * (p - i))) else old

/-- `MemOr(S, i, n, v)`: byte `i + j` is ORed with `(v >> 8j) & 0xFF` for `j < n` (R14). -/
def memOr {len : Nat} (buf : Vector Byte len) (i n v : Nat) : Vector Byte len :=
  buf.mapIdx fun p old =>
    if i ≤ p ∧ p < i + n then old ||| BitVec.ofNat 8 (v >>> (8 * (p - i))) else old

/-! ### The register map -/

/-- The number of a register (R22). -/
def Reg.number : Reg → Nat
  | .cmd => 0x00
  | .status => 0x01
  | .ctrl => 0x02
  | .flen => 0x03
  | .catlen => 0x04
  | .ndesc => 0x05
  | .adlcnt => 0x06
  | .msgcnt => 0x07
  | .val => 0x10
  | .res => 0x11
  | .spn => 0x12
  | .fmi => 0x13
  | .idx => 0x14
  | .name => 0x15
  | .lamps => 0x16
  | .loc => 0x17
  | .pvi => 0x18
  | .pvf => 0x19
  | .pvk => 0x1A
  | .enfcnt => 0x1B
  | .dskip => 0x1C
  | .fb i => 0x40 + i.val
  | .msg k i => 0x80 + 8 * k.val + i.val
  | .adlSpn i => 0x100 + 4 * i.val
  | .adlFmi i => 0x101 + 4 * i.val
  | .adlOcc i => 0x102 + 4 * i.val

/-- The registers whose number stands alone in R22. -/
def singleRegs : List Reg := [
  .cmd, .status, .ctrl, .flen, .catlen, .ndesc, .adlcnt, .msgcnt,
  .val, .res, .spn, .fmi, .idx, .name, .lamps, .loc, .pvi, .pvf, .pvk, .enfcnt, .dskip]

/-- The register at a number; `none` where the number is unmapped (R22). -/
def regAt (n : Nat) : Option Reg :=
  if h : 0x40 ≤ n ∧ n < 0x40 + Config.bufCap then
    some (.fb ⟨n - 0x40, by omega⟩)
  else if h : 0x80 ≤ n ∧ n < 0xA8 then
    some (.msg ⟨(n - 0x80) / 8, by omega⟩ ⟨(n - 0x80) % 8, by omega⟩)
  else if h : 0x100 ≤ n ∧ n < 0x150 then
    if (n - 0x100) % 4 = 0 then some (.adlSpn ⟨(n - 0x100) / 4, by omega⟩)
    else if (n - 0x100) % 4 = 1 then some (.adlFmi ⟨(n - 0x100) / 4, by omega⟩)
    else if (n - 0x100) % 4 = 2 then some (.adlOcc ⟨(n - 0x100) / 4, by omega⟩)
    else none
  else singleRegs.find? (fun r => r.number == n)

/-- The width of a register in bits (R22). -/
def Reg.width : Reg → Nat
  | .cmd => 32
  | .status => 4
  | .ctrl => 1
  | .flen => 8
  | .catlen => 11
  | .ndesc => 9
  | .adlcnt => 5
  | .msgcnt => 3
  | .val => 64
  | .res => 64
  | .spn => 32
  | .fmi => 8
  | .idx => 16
  | .name => 64
  | .lamps => 4
  | .loc => 24
  | .pvi => 66
  | .pvf => 32
  | .pvk => 1
  | .enfcnt => 5
  | .dskip => 5
  | .fb _ => 8
  | .msg _ _ => 8
  | .adlSpn _ => 32
  | .adlFmi _ => 8
  | .adlOcc _ => 32

/-- The host's access (R22). -/
def Reg.access : Reg → Access
  | .cmd => .wo
  | .status | .catlen | .ndesc | .loc | .pvi | .pvf | .pvk | .enfcnt | .dskip => .ro
  | .ctrl | .flen | .adlcnt | .msgcnt | .val | .res | .spn | .fmi | .idx | .name | .lamps => .rw
  | .fb _ | .msg _ _ | .adlSpn _ | .adlFmi _ | .adlOcc _ => .rw

/-- The legal values of a register among those of its width, as far as a host write can miss them
(R22, R26, R28, R29). -/
def Reg.legal : Reg → Nat → Bool
  | .flen, v => decide (v ≤ Config.bufCap)
  | .adlcnt, v => decide (v ≤ 20)
  | .msgcnt, v => decide (v ≤ 5)
  | _, _ => true

/-- The value of a register as a host read sees it (R69): `CMD` reads 0, `CATLEN` and `NDESC` show the sizes of the
configuration memories (R27), and every other register its contents. -/
def readReg (r : Reg) (s : State) : Nat :=
  match r with
  | .cmd => 0
  | .status => s.status.code.toNat
  | .ctrl => s.ctrl.toNat
  | .flen => s.flen.toNat
  | .catlen => (BitVec.ofNat 11 s.cat.length).toNat
  | .ndesc => (BitVec.ofNat 9 s.desc.length).toNat
  | .adlcnt => s.adlcnt.toNat
  | .msgcnt => s.msgcnt.toNat
  | .val => s.val.toNat
  | .res => s.res.toNat
  | .spn => s.spn.toNat
  | .fmi => s.fmi.toNat
  | .idx => s.idx.toNat
  | .name => s.name.toNat
  | .lamps => s.lamps.toNat
  | .loc => s.loc.toNat
  | .pvi => s.pvi.toNat
  | .pvf => s.pvf.toNat
  | .pvk => s.pvk.toNat
  | .enfcnt => s.enfcnt.toNat
  | .dskip => s.dskip.toNat
  | .fb i => s.fb[i].toNat
  | .msg k i => s.msg[k][i].toNat
  | .adlSpn i => s.adl[i].spn.toNat
  | .adlFmi i => s.adl[i].fmi.toNat
  | .adlOcc i => s.adl[i].occ.toNat

/-- The state with the contents of a host-writable register replaced by `v`; a register the host cannot write keeps
its value (R67). The caller has checked that `v` fits and is legal. -/
def setReg (r : Reg) (v : Nat) (s : State) : State :=
  match r with
  | .ctrl => { s with ctrl := BitVec.ofNat 1 v }
  | .flen => { s with flen := BitVec.ofNat 8 v }
  | .adlcnt => { s with adlcnt := BitVec.ofNat 5 v }
  | .msgcnt => { s with msgcnt := BitVec.ofNat 3 v }
  | .val => { s with val := BitVec.ofNat 64 v }
  | .res => { s with res := BitVec.ofNat 64 v }
  | .spn => { s with spn := BitVec.ofNat 32 v }
  | .fmi => { s with fmi := BitVec.ofNat 8 v }
  | .idx => { s with idx := BitVec.ofNat 16 v }
  | .name => { s with name := BitVec.ofNat 64 v }
  | .lamps => { s with lamps := BitVec.ofNat 4 v }
  | .fb i => { s with fb := s.fb.set i (BitVec.ofNat 8 v) }
  | .msg k i => { s with msg := s.msg.set k (s.msg[k].set i (BitVec.ofNat 8 v)) }
  | .adlSpn i => { s with adl := s.adl.set i { s.adl[i] with spn := BitVec.ofNat 32 v } }
  | .adlFmi i => { s with adl := s.adl.set i { s.adl[i] with fmi := BitVec.ofNat 8 v } }
  | .adlOcc i => { s with adl := s.adl.set i { s.adl[i] with occ := BitVec.ofNat 32 v } }
  | .cmd | .status | .catlen | .ndesc | .loc | .pvi | .pvf | .pvk | .enfcnt | .dskip => s

/-- A host write to a register other than `CMD`: a `RW` register takes a legal value; an illegal value, and any write
to a `RO` register, is ignored without error (R67, R213). -/
def writeReg (r : Reg) (v : Nat) (s : State) : State :=
  if r.access = .rw ∧ r.legal v = true then setReg r v s else s

/-! ### How a command ends -/

/-- The state with `STATUS.CODE` written (R24). -/
def State.withStatus (s : State) (c : Status) : State := { s with status := c }

/-- `raise E`, the whole of taking an error: the code, and nothing else (R202, R203, R208). There is no return from
it (R209). -/
def raise (e : ErrorKind) (s : State) : State := s.withStatus (.fatal e)

/-- The end of a command whose checks and computation gave `r`: an error is raised on the state before the command
(R203); a result is written and `STATUS` becomes `OK` (R24). -/
def complete {α : Type} (s : State) (r : Except ErrorKind α) (write : α → State) :
    Host.Outcome State Fault Refusal :=
  .next (match r with
    | .ok a => (write a).withStatus .ok
    | .error e => raise e s)

end Sys2Proof.Machine
end

