-- ==== Sys2Proof/Machine/Operands.lean ====
section
/-! DEFINITION. What the operands of a command name: a BitField, a message of the bank, a descriptor
(spec/30_encoding.md R84 to R87, R91), and the conversion of a descriptor's 1-based position
(spec/44_telegram.md R172). -/

namespace Sys2Proof.Machine

/-- A format K operand names one of the five messages; 5, 6 and 7 name none (R86). -/
def messageOperand (k : Nat) : Except ErrorKind (Fin 5) :=
  if h : k < 5 then .ok ⟨k, h⟩ else .error .badOperand

/-- A format D operand names a descriptor below `NDESC` (R87). -/
def descriptorOperand (desc : List Descriptor) (d : Nat) : Except ErrorKind Descriptor :=
  match desc[d]? with
  | some x => .ok x
  | none => .error .badOperand

/-- `findSignal`: the first signal in the descriptor's order whose 64-bit name equals `name` (R170). -/
def findSignal (x : Descriptor) (name : BitVec 64) : Except ErrorKind Signal :=
  match x.sigs.find? (fun g => g.name == name) with
  | some g => .ok g
  | none => .error .signalNotFound

/-- The signal a TDM command works on: the descriptor is looked at first, then the name (R176, R206). -/
def signalOperand (desc : List Descriptor) (d : Nat) (name : BitVec 64) :
    Except ErrorKind (Descriptor × Signal) :=
  match descriptorOperand desc d with
  | .error e => .error e
  | .ok x =>
    match findSignal x name with
    | .error e => .error e
    | .ok g => .ok (x, g)

/-- `toZeroBased`: the 1-based byte and bit of a signal as a 0-based BitField (R172). -/
def toZeroBased (g : Signal) : Except ErrorKind BitField :=
  if g.byte1 = 0 ∨ g.bit1 = 0 ∨ 8 < g.bit1.toNat then .error .badDescriptor
  else .ok ⟨g.byte1.toNat - 1, g.bit1.toNat - 1, g.lengthBits.toNat⟩

/-- The two checks on a BitField against a buffer or message of `totalLenBytes` bytes, the range first and then the
length (R110, R206). -/
def checkField (totalLenBytes : Nat) (f : BitField) : Except ErrorKind BitField :=
  if 8 * f.byteIndex + f.bitIndex + f.lengthBits > 8 * totalLenBytes then .error .outOfRange
  else if f.lengthBits < 1 ∨ 64 < f.lengthBits then .error .invalidLength
  else .ok f

end Sys2Proof.Machine
end

