-- ==== Sys2Proof/Machine/Bfx.lean ====
section
/-! DEFINITION. The bit-field extractor (spec/41_bfx.md): the functions `extractBits` and `packBits` on a buffer of
any size, and the commands that apply them to the frame buffer. -/

namespace Sys2Proof.Machine

/-- The whole bytes a field spans: `1 + floor((bitIndex + lengthBits - 1) / 8)` (R110). -/
def numBytes (bitIndex lengthBits : Nat) : Nat := 1 + (bitIndex + lengthBits - 1) / 8

/-- `extractBits(buf, totalLenBytes, byteIndex, bitIndex, lengthBits)` (R110). -/
def extractBits {len : Nat} (buf : Vector Byte len)
    (totalLenBytes byteIndex bitIndex lengthBits : Nat) : Except ErrorKind Nat :=
  match checkField totalLenBytes ⟨byteIndex, bitIndex, lengthBits⟩ with
  | .error e => .error e
  | .ok f =>
    .ok (memRead buf f.byteIndex (numBytes f.bitIndex f.lengthBits) >>> f.bitIndex
      &&& mask f.lengthBits)

/-- `packBits(buf, totalLenBytes, byteIndex, bitIndex, lengthBits, value)`: it ORs, and it masks the value
(R113). -/
def packBits {len : Nat} (buf : Vector Byte len)
    (totalLenBytes byteIndex bitIndex lengthBits value : Nat) : Except ErrorKind (Vector Byte len) :=
  match checkField totalLenBytes ⟨byteIndex, bitIndex, lengthBits⟩ with
  | .error e => .error e
  | .ok f =>
    .ok (memOr buf f.byteIndex (numBytes f.bitIndex f.lengthBits)
      ((value &&& mask f.lengthBits) <<< f.bitIndex))

/-- `XBITS` (R112). -/
def execXbits (byteIndex bitIndex lengthBits : Nat) (s : State) :
    Host.Outcome State Fault Refusal :=
  complete s (extractBits s.fb s.flen.toNat byteIndex bitIndex lengthBits) fun r =>
    { s with res := BitVec.ofNat 64 r }

/-- `PBITS` (R114). -/
def execPbits (byteIndex bitIndex lengthBits : Nat) (s : State) :
    Host.Outcome State Fault Refusal :=
  complete s (packBits s.fb s.flen.toNat byteIndex bitIndex lengthBits s.val.toNat) fun fb =>
    { s with fb := fb }

/-- The check of `SEXT`: a length of 1 to 64 (R116). -/
def sextOperand (lengthBits : Nat) : Except ErrorKind Nat :=
  if lengthBits < 1 ∨ 64 < lengthBits then .error .invalidLength else .ok lengthBits

/-- `SEXT`: sign extension of `RES` from bit `lengthBits - 1` (R116). -/
def execSext (lengthBits : Nat) (s : State) : Host.Outcome State Fault Refusal :=
  complete s (sextOperand lengthBits) fun n =>
    { s with res := BitVec.ofNat 64 (sext 64 s.res.toNat n) }

end Sys2Proof.Machine
end

