-- ==== Sys2Proof/Machine/Catalog.lean ====
section
/-! DEFINITION. The DTC catalog (spec/42_catalog.md): the functions `lookupIndex` and `lookupEntry`, and the
commands `LKIDX` and `LKENT`. -/

namespace Sys2Proof.Machine

/-- `lookupIndex(catalog, spn, fmi)`: the first index whose entry holds the pair; `none` is `NotFound` (R130). -/
def lookupIndex (catalog : List CatEntry) (spn : BitVec 32) (fmi : BitVec 8) : Option Nat :=
  catalog.findIdx? (fun e => e.spn == spn && e.fmi == fmi)

/-- `lookupEntry(catalog, index)` (R131). -/
def lookupEntry (catalog : List CatEntry) (index : Nat) : Except ErrorKind CatEntry :=
  match catalog[index]? with
  | some e => .ok e
  | none => .error .catalogIndexOutOfRange

/-- `LKIDX`: a miss writes `0xFFFF` and ends with the warning `NotFound` (R132, R204). -/
def execLkidx (s : State) : Host.Outcome State Fault Refusal :=
  .next (match lookupIndex s.cat s.spn s.fmi with
    | some i => { s with idx := BitVec.ofNat 16 i, status := .ok }
    | none => { s with idx := 0xFFFF, status := .notFound })

/-- `LKENT` (R133). -/
def execLkent (s : State) : Host.Outcome State Fault Refusal :=
  complete s (lookupEntry s.cat s.idx.toNat) fun e => { s with spn := e.spn, fmi := e.fmi }

end Sys2Proof.Machine
end

