-- ==== Sys2Proof/Machine/Codec.lean ====
section
/-! DEFINITION. The DTC codec (spec/43_dtc_codec.md): the functions `encode` and `decode` over the wire layout of
spec/30_encoding.md R92, R93, and the commands `ENC` and `DEC`. -/

namespace Sys2Proof.Machine

/-! ### Encode -/

/-- The 10-bit slot value of list position `i`: the catalog index of its entry, or `0x3FF` where the list is shorter
or the entry is not in the catalog (R141). -/
def slotIndex (catalog : List CatEntry) (dtcs : List DtcEntry) (i : Nat) : Nat :=
  match dtcs[i]? with
  | none => Config.sent10
  | some e => (lookupIndex catalog e.spn e.fmi).getD Config.sent10

/-- How many entries of the list `lookupIndex` does not find (R146, `nf`). -/
def missCount (catalog : List CatEntry) (dtcs : List DtcEntry) : Nat :=
  dtcs.countP fun e => (lookupIndex catalog e.spn e.fmi).isNone

/-- The message count for `n` entries: the source's formula, or with `CEILCNT` the corrected one (R143). -/
def messageCount (ceilcnt : Bool) (n : Nat) : Nat :=
  if ceilcnt then max 1 ((n + 4) / 5) else 1 + n / 5

/-- `W(k)`, the 64-bit value of message `k` of `mc` (R142, R144, R145). -/
def messageValue (catalog : List CatEntry) (lamps : BitVec 4) (dtcs : List DtcEntry)
    (mc k : Nat) : Nat :=
  (k % 4) <<< 56 |||
  (mc % 4) <<< 54 |||
  lamps.toNat <<< 50 |||
  slotIndex catalog dtcs (5 * k) <<< 40 |||
  slotIndex catalog dtcs (5 * k + 1) <<< 30 |||
  slotIndex catalog dtcs (5 * k + 2) <<< 20 |||
  slotIndex catalog dtcs (5 * k + 3) <<< 10 |||
  slotIndex catalog dtcs (5 * k + 4)

/-- A 64-bit value stored little-endian in the eight bytes of a message (R63). -/
def messageBytes (w : Nat) : Vector Byte 8 := memWrite (Vector.replicate 8 0) 0 8 w

/-- `encode(lamps, activeDtcs, catalog)`: the messages, in order; the message count is their number (R140). -/
def encodeDtcs (ceilcnt : Bool) (lamps : BitVec 4) (dtcs : List DtcEntry)
    (catalog : List CatEntry) : List (Vector Byte 8) :=
  (List.range (messageCount ceilcnt dtcs.length)).map fun k =>
    messageBytes (messageValue catalog lamps dtcs (messageCount ceilcnt dtcs.length) k)

/-- The active DTC list: the first `ADLCNT` entries of `ADL` (R28). -/
def activeList (s : State) : List DtcEntry := s.adl.toList.take s.adlcnt.toNat

/-- The valid messages: the first `MSGCNT` of the bank (R29). -/
def validMessages (s : State) : List (Vector Byte 8) := s.msg.toList.take s.msgcnt.toNat

/-- The bank with `out` stored from message 0 on; the messages beyond keep their bytes (R146). -/
def storeMessages (bank : Vector (Vector Byte 8) 5) (out : List (Vector Byte 8)) :
    Vector (Vector Byte 8) 5 :=
  bank.mapIdx fun k old => out[k]?.getD old

/-- `ENC` (R146). A lookup miss inside it is not reported in `STATUS` (R205). -/
def execEnc (s : State) : Host.Outcome State Fault Refusal :=
  complete s (.ok (encodeDtcs (s.ctrl == 1#1) s.lamps (activeList s) s.cat)) fun out =>
    { s with
      msg := storeMessages s.msg out
      msgcnt := BitVec.ofNat 3 out.length
      enfcnt := BitVec.ofNat 5 (missCount s.cat (activeList s)) }

/-! ### Decode -/

/-- Slot `j` (1 to 5) of a message with value `w`: `(w >> (50 - 10j)) & 0x3FF` (R93). -/
def slotOf (w j : Nat) : Nat := w >>> (50 - 10 * j) &&& 0x3FF

/-- The ten-bit values of the slots of a message, slot 1 first (R150, R152). -/
def slotsOf (m : Vector Byte 8) : List Nat := [1, 2, 3, 4, 5].map (slotOf (memRead m 0 8))

/-- The fate of a slot, in the order of the tests (R151). The second sentinel test never holds of a ten-bit value and
is kept, as the document asks (90 C12). -/
def slotFate (catalog : List CatEntry) (i16 : Nat) : SlotFate :=
  if i16 = Config.sent10 then .absent
  else if i16 = Config.sent16 then .absent
  else
    match lookupEntry catalog i16 with
    | .ok e => .found e
    | .error _ => .beyondCatalog

/-- What a slot appends to the list (R151). -/
def SlotFate.entry? : SlotFate → Option CatEntry
  | .found e => some e
  | .absent | .beyondCatalog => none

/-- The fates of all slots, in (message order, slot order) (R150). -/
def slotFates (catalog : List CatEntry) (messages : List (Vector Byte 8)) : List SlotFate :=
  (messages.flatMap slotsOf).map (slotFate catalog)

/-- The lamp status of a message: bits 53:50 (R92). -/
def lampsOf (m : Vector Byte 8) : BitVec 4 := BitVec.ofNat 4 (bits (memRead m 0 8) 53 50)

/-- `decode(messages, messageCount, catalog)`, the message count being the number of messages; no message is
`BadOperand`, and more than 20 entries are `ListOverflow` (R150, R152). -/
def decodeDtcs (messages : List (Vector Byte 8)) (catalog : List CatEntry) :
    Except ErrorKind Decoded :=
  match messages with
  | [] => .error .badOperand
  | first :: _ =>
    if 20 < ((slotFates catalog messages).filterMap SlotFate.entry?).length then .error .listOverflow
    else
      .ok {
        lamps := lampsOf first
        entries := (slotFates catalog messages).filterMap SlotFate.entry?
        skipped := (slotFates catalog messages).countP (· == .beyondCatalog) }

/-- The list with the decoded entries stored from entry 0 on, occurrence count 0; the entries beyond keep their
values (R152, D16). -/
def storeEntries (adl : Vector DtcEntry 20) (out : List CatEntry) : Vector DtcEntry 20 :=
  adl.mapIdx fun i old => (out[i]?.map fun e => ⟨e.spn, e.fmi, 0⟩).getD old

/-- `DEC` (R152). An index without a catalog entry is skipped and not reported in `STATUS` (R205). -/
def execDec (s : State) : Host.Outcome State Fault Refusal :=
  complete s (decodeDtcs (validMessages s) s.cat) fun out =>
    { s with
      lamps := out.lamps
      adl := storeEntries s.adl out.entries
      adlcnt := BitVec.ofNat 5 out.entries.length
      dskip := BitVec.ofNat 5 out.skipped }

end Sys2Proof.Machine
end

