-- ==== Sys2Proof/Machine/System.lean ====
section
/-! DEFINITION. The system commands (spec/45_system.md). -/

namespace Sys2Proof.Machine

/-- `NOP`: `STATUS <- OK` (R190). -/
def execNop (s : State) : Host.Outcome State Fault Refusal :=
  complete s (.ok ()) fun _ => s

/-- `CLRFB`: every byte of the frame buffer becomes 0, whatever `FLEN` is (R191). -/
def execClrfb (s : State) : Host.Outcome State Fault Refusal :=
  complete s (.ok ()) fun _ => { s with fb := Vector.replicate Config.bufCap 0 }

/-- `MOVMF k`: message `k` goes to `FB[0 .. 7]` and `FLEN` becomes 8; bytes of `FB` beyond keep their values
(R192). -/
def execMovmf (k : Nat) (s : State) : Host.Outcome State Fault Refusal :=
  complete s (messageOperand k) fun k =>
    { s with
      fb := s.fb.mapIdx fun i old => if h : i < 8 then s.msg[k][i] else old
      flen := 8 }

/-- The checks of `MOVFM`: the message index, then `FLEN` (R193). -/
def movfmOperand (k : Nat) (flen : BitVec 8) : Except ErrorKind (Fin 5) :=
  match messageOperand k with
  | .error e => .error e
  | .ok k => if flen = 8 then .ok k else .error .badOperand

/-- The first eight bytes of the frame buffer, as a message (R193). -/
def firstEight (fb : Vector Byte Config.bufCap) : Vector Byte 8 :=
  Vector.ofFn fun i : Fin 8 => fb[i.val]'(Nat.lt_of_lt_of_le i.isLt Config.msgBytes_le_bufCap)

/-- `MOVFM k`: `FB[0 .. 7]` goes to message `k` (R193). -/
def execMovfm (k : Nat) (s : State) : Host.Outcome State Fault Refusal :=
  complete s (movfmOperand k s.flen) fun k => { s with msg := s.msg.set k (firstEight s.fb) }

end Sys2Proof.Machine
end

