-- ==== Sys2Proof/Machine/Telegram.lean ====
section
/-! DEFINITION. The telegram descriptor interpreter (spec/44_telegram.md): the functions `extractSignal` and
`physicalValue`, and the commands `XSIG`, `SIGLOC`, `PHYS`. -/

namespace Sys2Proof.Machine

/-- The extraction of a signal that was found: against the smaller of the descriptor's length and the bytes loaded
(R173, D28). -/
def extractFound {len : Nat} (x : Descriptor) (g : Signal) (buf : Vector Byte len) (rawLen : Nat) :
    Except ErrorKind Nat :=
  match toZeroBased g with
  | .error e => .error e
  | .ok f => extractBits buf (min x.lenBytes.toNat rawLen) f.byteIndex f.bitIndex f.lengthBits

/-- `extractSignal(desc, name, rawBytes, rawLen)` (R173). -/
def extractSignal {len : Nat} (x : Descriptor) (name : BitVec 64) (buf : Vector Byte len)
    (rawLen : Nat) : Except ErrorKind Nat :=
  match findSignal x name with
  | .error e => .error e
  | .ok g => extractFound x g buf rawLen

/-- `physicalValue(sig, rawValue)`: the offset is added after the scaling and is never scaled (R179). -/
def physicalValue (g : Signal) (raw : BitVec 64) : PhysicalValue :=
  match g.kind with
  | .integer => .integer (raw.toNat + signed 32 g.offset.toNat)
  | .floatScaled => .float (Config.physFloat raw g.scaling g.offset)

/-- The raw value `XSIG d` extracts (R176). -/
def xsigValue (d : Nat) (s : State) : Except ErrorKind Nat :=
  match descriptorOperand s.desc d with
  | .error e => .error e
  | .ok x => extractSignal x s.name s.fb s.flen.toNat

/-- `XSIG` (R176). -/
def execXsig (d : Nat) (s : State) : Host.Outcome State Fault Refusal :=
  complete s (xsigValue d s) fun r => { s with res := BitVec.ofNat 64 r }

/-- The 0-based location of a signal that was found, checked against the descriptor's declared length alone
(R178). -/
def locateFound (x : Descriptor) (g : Signal) : Except ErrorKind BitField :=
  match toZeroBased g with
  | .error e => .error e
  | .ok f => checkField x.lenBytes.toNat f

/-- The location `SIGLOC d` computes (R178). -/
def siglocField (d : Nat) (s : State) : Except ErrorKind BitField :=
  match signalOperand s.desc d s.name with
  | .error e => .error e
  | .ok (x, g) => locateFound x g

/-- `SIGLOC` (R178); `LOC` has the layout of a format B operand (R36). -/
def execSigloc (d : Nat) (s : State) : Host.Outcome State Fault Refusal :=
  complete s (siglocField d s) fun f =>
    { s with loc := BitVec.ofNat 24 (fieldOperand f.byteIndex f.bitIndex f.lengthBits) }

/-- The physical value written: one of `PVI` and `PVF`, and its kind in `PVK` (R180, R37). -/
def storePhysical (s : State) : PhysicalValue → State
  | .integer v => { s with pvi := BitVec.ofInt 66 v, pvk := 0 }
  | .float p => { s with pvf := p, pvk := 1 }

/-- `PHYS`: the physical value of `RES`, read as unsigned (R180). -/
def execPhys (d : Nat) (s : State) : Host.Outcome State Fault Refusal :=
  complete s (signalOperand s.desc d s.name) fun (_, g) =>
    storePhysical s (physicalValue g s.res)

end Sys2Proof.Machine
end

