-- ==== Sys2Proof/Machine/Dispatch.lean ====
section
/-! DEFINITION. The meaning of each command, one arm per constructor (spec/30_encoding.md R82). -/

namespace Sys2Proof.Machine

def exec (i : Instr) (s : State) : Host.Outcome State Fault Refusal :=
  match i with
  -- system commands (spec/45_system.md)
  | .nop => Sys2Proof.Machine.execNop s
  | .clrfb => Sys2Proof.Machine.execClrfb s
  | .movmf k => Sys2Proof.Machine.execMovmf k s
  | .movfm k => Sys2Proof.Machine.execMovfm k s
  -- bit-field extractor (spec/41_bfx.md)
  | .xbits byteIndex bitIndex lengthBits => Sys2Proof.Machine.execXbits byteIndex bitIndex lengthBits s
  | .pbits byteIndex bitIndex lengthBits => Sys2Proof.Machine.execPbits byteIndex bitIndex lengthBits s
  | .sext lengthBits => Sys2Proof.Machine.execSext lengthBits s
  -- DTC catalog (spec/42_catalog.md)
  | .lkidx => Sys2Proof.Machine.execLkidx s
  | .lkent => Sys2Proof.Machine.execLkent s
  -- DTC codec (spec/43_dtc_codec.md)
  | .enc => Sys2Proof.Machine.execEnc s
  | .dec => Sys2Proof.Machine.execDec s
  -- telegram descriptor interpreter (spec/44_telegram.md)
  | .xsig d => Sys2Proof.Machine.execXsig d s
  | .sigloc d => Sys2Proof.Machine.execSigloc d s
  | .phys d => Sys2Proof.Machine.execPhys d s

end Sys2Proof.Machine
end

