-- ==== Sys2Proof/Machine/Transactions.lean ====
section
/-! DEFINITION. The host's transactions (spec/20_memory.md section 4) and reset (spec/70_reset_and_hazards.md
R220, R221, R224). Each is one atomic step (R68, R70). -/

namespace Sys2Proof.Machine

/-- A word written to `CMD` is decoded and its command executed; a word that is no command raises `IllegalCommand`
(R80, R68). -/
def issueCommand (w : Word) (s : State) : Host.Outcome State Fault Refusal :=
  match decode w with
  | .ok i => exec i s
  | .error _ => .next (raise .illegalCommand s)

/-- `WR r, v` (R67, R68). An unmapped number and a value that does not fit are refused (R69, R67, U10). -/
def hostWrite (number value : Nat) (s : State) : Host.Outcome State Fault Refusal :=
  match regAt number with
  | none => .refused (.unmappedRegister number)
  | some r =>
    if value < 2 ^ r.width then
      if r = .cmd then issueCommand (BitVec.ofNat 32 value) s
      else .next (writeReg r value s)
    else .refused (.valueTooWide number value)

/-- `RD r`: the host receives the value and nothing else changes (R69). -/
def hostRead (number : Nat) (s : State) : Host.Outcome State Fault Refusal :=
  match regAt number with
  | none => .refused (.unmappedRegister number)
  | some r => .next { s with received := (number, readReg r s) :: s.received }

/-- Any value at all in a register that reset `n` leaves unspecified (R224, U9; log 3). -/
def anyValue (n : Nat) (r : Reg) : Nat := Config.unspecified n r.number

/-- Reset between two transactions (R220): the listed registers take their values, the configuration memories keep
theirs (R221), and all other storage holds any value (R224). The bits of `LOC` that do not exist read 0 (R90). -/
def hostReset (s : State) : State :=
  { s with
    status := .ok
    ctrl := 0
    flen := 0
    adlcnt := 0
    msgcnt := 0
    pvk := 0
    enfcnt := 0
    dskip := 0
    val := BitVec.ofNat 64 (anyValue s.resets .val)
    res := BitVec.ofNat 64 (anyValue s.resets .res)
    spn := BitVec.ofNat 32 (anyValue s.resets .spn)
    fmi := BitVec.ofNat 8 (anyValue s.resets .fmi)
    idx := BitVec.ofNat 16 (anyValue s.resets .idx)
    name := BitVec.ofNat 64 (anyValue s.resets .name)
    lamps := BitVec.ofNat 4 (anyValue s.resets .lamps)
    loc := BitVec.ofNat 24 (anyValue s.resets .loc) &&& 0xFF077F
    pvi := BitVec.ofNat 66 (anyValue s.resets .pvi)
    pvf := BitVec.ofNat 32 (anyValue s.resets .pvf)
    fb := Vector.ofFn fun i => BitVec.ofNat 8 (anyValue s.resets (.fb i))
    msg := Vector.ofFn fun k => Vector.ofFn fun i => BitVec.ofNat 8 (anyValue s.resets (.msg k i))
    adl := Vector.ofFn fun i =>
      { spn := BitVec.ofNat 32 (anyValue s.resets (.adlSpn i))
        fmi := BitVec.ofNat 8 (anyValue s.resets (.adlFmi i))
        occ := BitVec.ofNat 32 (anyValue s.resets (.adlOcc i)) }
    resets := s.resets + 1 }

/-- One transaction of the host. -/
def perform (e : HostEvent) (s : State) : Host.Outcome State Fault Refusal :=
  match e with
  | .wr number value => hostWrite number value s
  | .rd number => hostRead number s
  | .reset => .next (hostReset s)

/-- The next transaction taken from the host, in its order, and performed; with none the CFP is idle and nothing
changes (R71, R212, R220). -/
def runNext (s : State) : Host.Outcome State Fault Refusal :=
  match s.pending with
  | [] => .next s
  | e :: rest => perform e { s with pending := rest }

/-- The state whose next transaction is a write of the word `w` to `CMD` (log 1). -/
def queueCommand (s : State) (w : Nat) : State :=
  { s with pending := .wr Reg.cmd.number w :: s.pending }

end Sys2Proof.Machine
end

