-- ==== Sys2Proof/Machine/Step.lean ====
section
/-! DEFINITION. One step of the machine: one host transaction (spec/00_scope.md R7, spec/20_memory.md R68, R70). -/

namespace Sys2Proof.Machine

/-- One step: the next host transaction, or nothing when there is none. -/
def step (s : State) : Host.Outcome State Fault Refusal := runNext s

/-- The state in which the very next step is the host's write of the command word `w` (its low `nbits` bits, the
others zero) to `CMD`. The CFP has no fetch (R21, R73): a program is the host's transactions (R100; log 1). -/
def State.withFetchWord (s : State) (nbits w : Nat) : State := queueCommand s (w % 2 ^ nbits)

end Sys2Proof.Machine
end

