-- ==== Sys2Proof/Machine/Assembler.lean ====
section
/-! DEFINITION. The assembler notation (spec/30_encoding.md section 8): what each line of a program makes of the
host. It is a function outside the machine, so a rejected line is `none` (R101). -/

namespace Sys2Proof.Machine

/-- A line of a program: the three kinds of R100 and the pseudo-instructions of R103. -/
inductive AsmLine where
  /-- `wr REG, value` (R100). -/
  | wr (r : Reg) (value : Nat)
  /-- `rd REG` (R100). -/
  | rd (r : Reg)
  /-- `<mnemonic> operands` (R100). -/
  | command (i : Instr)
  /-- `cmd w`, the only way to write an illegal word (R103). -/
  | cmd (w : Nat)
  /-- `name "TEXT"` (R103, R102). -/
  | name (text : List Char)
  /-- `setlen n` (R103). -/
  | setlen (n : Nat)
  /-- `ldfb b0, …, b(n-1)` (R103). -/
  | ldfb (bytes : List Nat)
  /-- `ldmsg k, b0, …, b7` (R103). -/
  | ldmsg (k : Nat) (bytes : List Nat)
  /-- `adl i, spn, fmi` (R103). -/
  | adl (i spn fmi : Nat)
  /-- `clrst` (R103). -/
  | clrst
deriving DecidableEq, Repr

/-- `wr` of a register by its number; a value that does not fit the width is rejected (R101). -/
def asmWrite (r : Reg) (value : Nat) : Option HostEvent :=
  if value < 2 ^ r.width then some (.wr r.number value) else none

/-- The same for a number that names a register only if it is mapped. -/
def asmWriteAt (number value : Nat) : Option HostEvent :=
  match regAt number with
  | some r => asmWrite r value
  | none => none

/-- All the events, or `none` if one of them is rejected. -/
def allOrNone : List (Option HostEvent) → Option (List HostEvent)
  | [] => some []
  | none :: _ => none
  | some e :: rest =>
    match allOrNone rest with
    | some es => some (e :: es)
    | none => none

/-- `wr` of the bytes to the registers from `base` on, in order. -/
def asmBytes (base : Nat) (bytes : List Nat) : List (Option HostEvent) :=
  bytes.zipIdx.map fun (b, i) => asmWriteAt (base + i) b

/-- `key("TEXT")`: byte `i` is the ASCII code of character `i`; one to eight ASCII characters, else the text has no
key here (R102). -/
def nameKey (text : List Char) : Option Nat :=
  if 1 ≤ text.length ∧ text.length ≤ 8 ∧ text.all (fun c => c.toNat < 128) then
    some (leValue (text.map fun c => BitVec.ofNat 8 c.toNat))
  else none

/-- The host transactions of a line, or `none` where the assembler rejects it (R100, R101, R103). -/
def assembleLine : AsmLine → Option (List HostEvent)
  | .wr r value => allOrNone [asmWrite r value]
  | .rd r => some [.rd r.number]
  | .command i => if i.wellFormed then allOrNone [asmWrite .cmd (encode i).toNat] else none
  | .cmd w => allOrNone [asmWrite .cmd w]
  | .name text =>
    match nameKey text with
    | some key => allOrNone [asmWrite .name key]
    | none => none
  | .setlen n => allOrNone [asmWrite .flen n]
  | .ldfb bytes =>
    if bytes.length ≤ Config.bufCap then
      allOrNone (asmBytes 0x40 bytes ++ [asmWrite .flen bytes.length])
    else none
  | .ldmsg k bytes =>
    if k < 5 ∧ bytes.length = 8 then allOrNone (asmBytes (0x80 + 8 * k) bytes) else none
  | .adl i spn fmi =>
    if i < 20 then
      allOrNone [asmWriteAt (0x100 + 4 * i) spn, asmWriteAt (0x101 + 4 * i) fmi,
        asmWriteAt (0x102 + 4 * i) 0]
    else none
  | .clrst => allOrNone [asmWrite .cmd (encode .nop).toNat]

/-- A program: its lines in order (R100, R236). -/
def assemble : List AsmLine → Option (List HostEvent)
  | [] => some []
  | line :: rest =>
    match assembleLine line, assemble rest with
    | some es, some more => some (es ++ more)
    | _, _ => none

end Sys2Proof.Machine
end

