-- ==== Sys2Proof/Safety.lean ====
section
/-! DEFINITION. The terms in which claims about the machine are made: the legal values that every step keeps
(spec/10_state.md R22), what a reset leaves (spec/70_reset_and_hazards.md R220), what a command may write, may read
and may end with (R22, spec/60_exceptions.md R201), and the bit string a buffer is (spec/20_memory.md R62). -/

namespace Sys2Proof.Machine

/-! ### Legal states -/

/-- The legal values of R22, R26, R28, R29, R36, R38, R90 and the sizes of the configuration memories (R10, R27).
States that break it are reached by no run. -/
structure State.Inv (s : State) : Prop where
  flen_le : s.flen.toNat ≤ Config.bufCap
  adlcnt_le : s.adlcnt.toNat ≤ 20
  msgcnt_le : s.msgcnt.toNat ≤ 5
  enfcnt_le : s.enfcnt.toNat ≤ 20
  dskip_le : s.dskip.toNat ≤ 25
  loc_reserved : s.loc &&& 0x00F880#24 = 0#24
  cat_le : s.cat.length ≤ 1024
  desc_le : s.desc.length ≤ 256

/-- What a state has right after a reset, whatever the storage that R220 calls unspecified holds (R220, R236). -/
structure State.AfterReset (s : State) : Prop where
  status_ok : readReg .status s = 0
  ctrl_zero : readReg .ctrl s = 0
  flen_zero : readReg .flen s = 0
  adlcnt_zero : readReg .adlcnt s = 0
  msgcnt_zero : readReg .msgcnt s = 0
  pvk_zero : readReg .pvk s = 0
  enfcnt_zero : readReg .enfcnt s = 0
  dskip_zero : readReg .dskip s = 0
  cmd_reads_zero : readReg .cmd s = 0

/-! ### Frames -/

/-- From `s` to `t` no register changes but those in `written`, and neither do the configuration memories nor the
model's own input, output and counter. `FB`, `MSG` and `ADL` are registers here, byte by byte and field by field. -/
def Unchanged (written : Reg → Bool) (s t : State) : Prop :=
  (∀ r, written r = false → readReg r t = readReg r s) ∧ t.cat = s.cat ∧ t.desc = s.desc ∧
    t.pending = s.pending ∧ t.received = s.received ∧ t.resets = s.resets

/-- The registers a command may write: the column "written by commands" of R22, and `STATUS` for every command.
`MOVFM k` writes message `k` alone (R193). -/
def writtenBy : Instr → Reg → Bool
  | _, .status => true
  | .clrfb, .fb _ => true
  | .movmf _, .fb _ => true
  | .movmf _, .flen => true
  | .movfm k, .msg j _ => decide (j.val = k)
  | .xbits _ _ _, .res => true
  | .pbits _ _ _, .fb _ => true
  | .sext _, .res => true
  | .lkidx, .idx => true
  | .lkent, .spn => true
  | .lkent, .fmi => true
  | .enc, .msg _ _ => true
  | .enc, .msgcnt => true
  | .enc, .enfcnt => true
  | .dec, .lamps => true
  | .dec, .adlcnt => true
  | .dec, .dskip => true
  | .dec, .adlSpn _ => true
  | .dec, .adlFmi _ => true
  | .dec, .adlOcc _ => true
  | .xsig _, .res => true
  | .sigloc _, .loc => true
  | .phys _, .pvi => true
  | .phys _, .pvf => true
  | .phys _, .pvk => true
  | _, _ => false

/-- The registers a command may depend on: the column "read by commands" of R22 (the configuration memories apart).
`MOVMF k` reads message `k` alone (R192). -/
def readBy : Instr → Reg → Bool
  | .movmf k, .msg j _ => decide (j.val = k)
  | .movfm _, .flen => true
  | .movfm _, .fb _ => true
  | .xbits _ _ _, .flen => true
  | .xbits _ _ _, .fb _ => true
  | .pbits _ _ _, .flen => true
  | .pbits _ _ _, .fb _ => true
  | .pbits _ _ _, .val => true
  | .sext _, .res => true
  | .lkidx, .spn => true
  | .lkidx, .fmi => true
  | .lkent, .idx => true
  | .enc, .ctrl => true
  | .enc, .adlcnt => true
  | .enc, .lamps => true
  | .enc, .adlSpn _ => true
  | .enc, .adlFmi _ => true
  | .dec, .msgcnt => true
  | .dec, .msg _ _ => true
  | .xsig _, .flen => true
  | .xsig _, .name => true
  | .xsig _, .fb _ => true
  | .sigloc _, .name => true
  | .phys _, .name => true
  | .phys _, .res => true
  | _, _ => false

/-- The codes a command can end with: its row of R201. -/
def codesOf : Instr → List Nat
  | .nop => [0]
  | .clrfb => [0]
  | .movmf _ => [0, 6]
  | .movfm _ => [0, 6]
  | .xbits _ _ _ => [0, 1, 2]
  | .pbits _ _ _ => [0, 1, 2]
  | .sext _ => [0, 2]
  | .lkidx => [0, 3]
  | .lkent => [0, 4]
  | .enc => [0]
  | .dec => [0, 6, 9]
  | .xsig _ => [0, 1, 2, 6, 7, 8]
  | .sigloc _ => [0, 1, 2, 6, 7, 8]
  | .phys _ => [0, 6, 7]

/-! ### Command words -/

/-- The opcodes of R82, each with the bits of the word that its format reserves (R81). -/
def reservedOf : List (Nat × Nat) := [
  (0x00, 0x00FFFFFF), (0x01, 0x00FFFFFF), (0x02, 0x00FFFFF8), (0x03, 0x00FFFFF8),
  (0x10, 0x0000F880), (0x11, 0x0000F880), (0x12, 0x00FFFF80),
  (0x20, 0x00FFFFFF), (0x21, 0x00FFFFFF), (0x30, 0x00FFFFFF), (0x31, 0x00FFFFFF),
  (0x40, 0x00FFFF00), (0x41, 0x00FFFF00), (0x42, 0x00FFFF00)]

/-- The rows of the opcode table: mnemonic, mask, match (R104). -/
def tableRows : List (String × Word × Word) := [
  ("NOP", 0xFFFFFFFF, 0x00000000),
  ("CLRFB", 0xFFFFFFFF, 0x01000000),
  ("MOVMF", 0xFFFFFFF8, 0x02000000),
  ("MOVFM", 0xFFFFFFF8, 0x03000000),
  ("XBITS", 0xFF00F880, 0x10000000),
  ("PBITS", 0xFF00F880, 0x11000000),
  ("SEXT", 0xFFFFFF80, 0x12000000),
  ("LKIDX", 0xFFFFFFFF, 0x20000000),
  ("LKENT", 0xFFFFFFFF, 0x21000000),
  ("ENC", 0xFFFFFFFF, 0x30000000),
  ("DEC", 0xFFFFFFFF, 0x31000000),
  ("XSIG", 0xFFFFFF00, 0x40000000),
  ("SIGLOC", 0xFFFFFF00, 0x41000000),
  ("PHYS", 0xFFFFFF00, 0x42000000)]

/-! ### Buffers, slots and lists as the claims read them -/

/-- Bit `g` of the bit string a buffer is: bit `g mod 8` of byte `floor(g / 8)` (R62). -/
def bufBit {len : Nat} (buf : Vector Byte len) (g : Nat) : Bool :=
  (buf.toList.getD (g / 8) 0).getLsbD (g % 8)

/-- The 64-bit value of message `k` of the bank (R63). -/
def messageWord (s : State) (k : Nat) : Nat :=
  if h : k < 5 then memRead s.msg[k] 0 8 else 0

/-- The slot value list position `i` resolves to: `0x3FF` at and beyond `ADLCNT` and for an entry that is not in the
catalog (R141). -/
def expectedSlot (s : State) (i : Nat) : Nat :=
  if h : i < s.adlcnt.toNat ∧ i < 20 then
    (lookupIndex s.cat s.adl[i].spn s.adl[i].fmi).getD 0x3FF
  else 0x3FF

/-- How many of the first `n` list positions hold an entry that is not in the catalog (R146). -/
def expectedMisses (s : State) : Nat → Nat
  | 0 => 0
  | n + 1 =>
    (if h : n < 20 then if (lookupIndex s.cat s.adl[n].spn s.adl[n].fmi).isNone then 1 else 0 else 0)
      + expectedMisses s n

/-- The message count of R143 for the list length `n` and the bit `CEILCNT`. -/
def expectedCount (ctrl : BitVec 1) (n : Nat) : Nat :=
  if ctrl = 0 then 1 + n / 5 else if n = 0 then 1 else n / 5 + (if n % 5 = 0 then 0 else 1)

/-- The slot values of the first `mc` messages, in (message order, slot order) (R150). -/
def validSlots (s : State) (mc : Nat) : List Nat :=
  (List.range mc).flatMap fun k => [1, 2, 3, 4, 5].map fun j =>
    bits (messageWord s k) (59 - 10 * j) (50 - 10 * j)

/-- The entries the valid slots stand for: a slot `0x3FF` or at or beyond `CATLEN` stands for none (R151). -/
def validEntries (s : State) (mc : Nat) : List CatEntry :=
  (validSlots s mc).filterMap fun v => if v = 0x3FF then none else s.cat[v]?

/-- How many slots are skipped for want of a catalog entry (R151). -/
def skippedSlots (s : State) (mc : Nat) : Nat :=
  ((validSlots s mc).filter fun v => v ≠ 0x3FF ∧ s.cat.length ≤ v).length

/-- `packBits` calls one after the other on an eight-byte buffer; each is a BitField with its value. -/
def packAll : Vector Byte 8 → List (BitField × Nat) → Except ErrorKind (Vector Byte 8)
  | buf, [] => .ok buf
  | buf, (f, v) :: rest =>
    match packBits buf 8 f.byteIndex f.bitIndex f.lengthBits v with
    | .ok buf' => packAll buf' rest
    | .error e => .error e

end Sys2Proof.Machine
end

