-- ==== Sys2Proof/Certificates/Slice0/Obligations.lean ====
section
/-! DEFINITION. The statements for the provers. Each docstring names the rule of spec/ it formalises. A next state
written as `{ s with … }` says the frame as well: everything not named there is as it was. -/

open Sys2Proof Sys2Proof.Machine

/-! ### Command words (spec/30_encoding.md) -/

/-- One word of every command, written out from R81 and R100, decodes to the command it stands for. -/
def Obligations.SpecWordsDecode : Prop :=
  decode 0b00000000000000000000000000000000 = .ok .nop ∧
  decode 0b00000001000000000000000000000000 = .ok .clrfb ∧
  decode 0b00000010000000000000000000000100 = .ok (.movmf 4) ∧
  decode 0b00000011000000000000000000000010 = .ok (.movfm 2) ∧
  decode 0b00010000000000110000011000001010 = .ok (.xbits 3 6 10) ∧
  decode 0b00010001111111110000000101000000 = .ok (.pbits 255 1 64) ∧
  decode 0b00010010000000000000000001111111 = .ok (.sext 127) ∧
  decode 0b00100000000000000000000000000000 = .ok .lkidx ∧
  decode 0b00100001000000000000000000000000 = .ok .lkent ∧
  decode 0b00110000000000000000000000000000 = .ok .enc ∧
  decode 0b00110001000000000000000000000000 = .ok .dec ∧
  decode 0b01000000000000000000000011111111 = .ok (.xsig 255) ∧
  decode 0b01000001000000000000000000000001 = .ok (.sigloc 1) ∧
  decode 0b01000010000000000000000000000010 = .ok (.phys 2)

/-- Decoding the word of a well-formed command gives the command back, at every operand value its fields admit
(R80 to R88, R100). -/
def Obligations.DecodeEncodeAgree : Prop :=
  ∀ i : Instr, i.WellFormed → decode (encode i) = .ok i

/-- A word that decodes is the word of the command it decodes to, and that command is well formed: no bit of the
word is dropped (R88, R89). -/
def Obligations.EncodeDecodeAgree : Prop :=
  ∀ (w : Word) (i : Instr), decode w = .ok i → i.WellFormed ∧ encode i = w

/-- R89: a word is illegal in exactly two cases, and it then raises `IllegalCommand`. -/
def Obligations.IllegalWordsExactly : Prop :=
  ∀ (w : Word) (s : State),
    ((∃ row ∈ reservedOf, w.toNat / 2 ^ 24 = row.1 ∧ w.toNat &&& row.2 = 0) →
      ∃ i, decode w = .ok i ∧ issueCommand w s = exec i s) ∧
    ((∀ row ∈ reservedOf, w.toNat / 2 ^ 24 = row.1 → w.toNat &&& row.2 ≠ 0) →
      issueCommand w s = .next { s with status := .fatal .illegalCommand })

/-- R104: a word `w` is a row's command exactly when `(w & mask) == match`. -/
def Obligations.TableRowsSelectTheirCommand : Prop :=
  ∀ row ∈ tableRows, ∀ w : Word,
    w &&& row.2.1 = row.2.2 ↔ ∃ i, decode w = .ok i ∧ i.mnemonic = row.1

/-! ### The step (spec/20_memory.md) -/

/-- The step over a host's write of a command word to `CMD` is the execution of the command, on the state from which
that transaction has been taken (R68; the queue of transactions is the model's own, log 1). -/
def Obligations.StepRunsTheDecodedCommand : Prop :=
  ∀ (s : State) (w : Word) (i : Instr) (rest : List HostEvent), decode w = .ok i →
    (s.pending = .wr 0 w.toNat :: rest → step s = exec i { s with pending := rest }) ∧
    step (s.withFetchWord 32 w.toNat) = exec i s

/-- R89, R80 as a step: the step over a host's write to `CMD` of a word that is illegal by R89 leaves `IllegalCommand`
in `STATUS`, takes the transaction from the queue (the model's own, log 1), and changes nothing else. -/
def Obligations.IllegalWordStepRaisesIllegalCommand : Prop :=
  ∀ (s : State) (w : Word) (rest : List HostEvent),
    (∀ row ∈ reservedOf, w.toNat / 2 ^ 24 = row.1 → w.toNat &&& row.2 ≠ 0) →
    (s.pending = .wr 0 w.toNat :: rest →
      step s = .next { s with pending := rest, status := .fatal .illegalCommand }) ∧
    step (s.withFetchWord 32 w.toNat) = .next { s with status := .fatal .illegalCommand }

/-- R232: a write to `CMD`, of whatever word, is one step that always has a next state; as the step over the head of the
queue (the model's own, log 1) it takes that one transaction. -/
def Obligations.EveryCommandWriteHasANextState : Prop :=
  ∀ (s : State) (w : Word),
    (∃ t, perform (.wr 0 w.toNat) s = .next t) ∧
    ∀ rest : List HostEvent, s.pending = .wr 0 w.toNat :: rest →
      ∃ t, step s = .next t ∧ t.pending = rest ∧ t.received = s.received

/-- With no transaction left a step changes nothing: the CFP is idle (R212; the model's choice, log 1). -/
def Obligations.IdleStepChangesNothing : Prop :=
  ∀ s : State, s.pending = [] → step s = .next s

/-- R22: the register at a register's number is that register, and a number that is no register's is unmapped. -/
def Obligations.RegisterMapIsExact : Prop :=
  ∀ (n : Nat) (r : Reg), regAt n = some r ↔ r.number = n

/-- R67: a legal write to a `RW` register is taken, and changes that register alone; every other write that fits the
width is ignored; one that does not fit is no transaction (refused, log 9). A write that fits `CMD` is a command. Each
clause is about the step over the write at the head of the queue, which takes it from there (the queue is the model's
own, log 1). -/
def Obligations.HostWriteTakesOrIgnores : Prop :=
  ∀ (s : State) (r : Reg) (v : Nat) (rest : List HostEvent),
    s.pending = .wr r.number v :: rest →
    (v < 2 ^ r.width → r.access = .rw →
      (r = .flen → v ≤ Config.bufCap) → (r = .adlcnt → v ≤ 20) → (r = .msgcnt → v ≤ 5) →
      ∃ t, step s = .next t ∧ readReg r t = v ∧
        Unchanged (fun q => decide (q = r)) { s with pending := rest } t) ∧
    (v < 2 ^ r.width →
      (r.access = .ro ∨ (r = .flen ∧ Config.bufCap < v) ∨ (r = .adlcnt ∧ 20 < v) ∨ (r = .msgcnt ∧ 5 < v)) →
      step s = .next { s with pending := rest }) ∧
    (2 ^ r.width ≤ v → step s = .refused (.valueTooWide r.number v))

/-- R69: a read of a mapped register gives the host its value (in the model's output list, log 5) and changes no state of
the CFP, `CMD` reads 0, and an access to an unmapped number is refused. The clauses on a step are about the access at the
head of the queue; a read is taken from there (the queue is the model's own, log 1). -/
def Obligations.HostReadGivesTheValue : Prop :=
  ∀ (s : State) (n v : Nat) (rest : List HostEvent),
    (∀ r : Reg, r.number = n → s.pending = .rd n :: rest →
      step s = .next { s with pending := rest, received := (n, readReg r s) :: s.received }) ∧
    readReg .cmd s = 0 ∧
    ((∀ r : Reg, r.number ≠ n) →
      (s.pending = .rd n :: rest → step s = .refused (.unmappedRegister n)) ∧
      (s.pending = .wr n v :: rest → step s = .refused (.unmappedRegister n)))

/-- R220: a reset leaves the listed registers at their values and the configuration memories as they were, and the
machine right after reset is such a state. The contents the spec calls unspecified are not constrained. -/
def Obligations.ResetLeavesTheListedValues : Prop :=
  (∀ s : State, ∃ t, perform .reset s = .next t ∧ t.AfterReset ∧ t.cat = s.cat ∧ t.desc = s.desc) ∧
  State.reset.AfterReset

/-- The step over a reset at the head of the queue performs it: the listed registers at their values, the configuration
memories as they were (R220, R221), and that one transaction taken (the queue is the model's own, log 1; so is the list
of values read, log 5). -/
def Obligations.StepPerformsTheReset : Prop :=
  ∀ (s : State) (rest : List HostEvent), s.pending = .reset :: rest →
    ∃ t, step s = .next t ∧ t.AfterReset ∧ t.cat = s.cat ∧ t.desc = s.desc ∧
      t.pending = rest ∧ t.received = s.received

/-- The machine right after reset has the configured contents in its configuration memories, and `CATLEN` and `NDESC`
show their sizes (R220, R27). What those contents are is open, and that they stand in the state is the model's choice
(log 4). -/
def Obligations.ResetShowsTheConfiguration : Prop :=
  State.reset.cat = Config.catalog ∧ State.reset.desc = Config.descriptors ∧
  readReg .catlen State.reset = Config.catalog.length ∧
  readReg .ndesc State.reset = Config.descriptors.length

/-! ### Rules about every command and every step -/

/-- The machine right after reset is a legal state (its zeros in unspecified storage are the model's choice, log 2). -/
def Obligations.ResetStateIsLegal : Prop := State.reset.Inv

/-- Every step from a legal state leads to a legal state: the counts stay in their ranges, the bits of `LOC` that do
not exist stay 0, and the configuration memories keep their sizes (R22, R26, R28, R29, R36, R38, R90). -/
def Obligations.StepKeepsLegalStates : Prop :=
  ∀ s t : State, s.Inv → step s = .next t → t.Inv

/-- R27, R42, R43, R221: no step changes a configuration memory. -/
def Obligations.ConfigurationIsNeverWritten : Prop :=
  ∀ s t : State, step s = .next t → t.cat = s.cat ∧ t.desc = s.desc

/-- R203: a command that ends with a fatal code has written the code and nothing else; so has a word that is no
command. -/
def Obligations.FatalErrorWritesOnlyTheCode : Prop :=
  (∀ (i : Instr) (s t : State) (e : ErrorKind), exec i s = .next t → t.status = .fatal e →
    t = { s with status := .fatal e } ∧ readReg .status t = e.code.toNat) ∧
  ∀ (w : Word) (s t : State) (e : ErrorKind), issueCommand w s = .next t → t.status = .fatal e →
    t = { s with status := .fatal e } ∧ readReg .status t = e.code.toNat

/-- R201: every command ends, and with a code of its row of the table. -/
def Obligations.CommandsEndWithTheirCodes : Prop :=
  ∀ (i : Instr) (s : State), ∃ t, exec i s = .next t ∧ readReg .status t ∈ codesOf i

/-- R22: a command changes no register but those the column "written by commands" gives it, and neither a
configuration memory nor the host's side. -/
def Obligations.CommandsWriteOnlyTheirRegisters : Prop :=
  ∀ (i : Instr) (s t : State), exec i s = .next t → Unchanged (writtenBy i) s t

/-- R45: a command's effect depends on the registers the column "read by commands" gives it and on the configuration
memories, and on nothing else: whatever else differs, each register ends up equal in both runs or unchanged in
both. -/
def Obligations.CommandsDependOnlyOnTheirRegisters : Prop :=
  ∀ (i : Instr) (s s' t t' : State),
    (∀ r, readBy i r = true → readReg r s = readReg r s') → s.cat = s'.cat → s.desc = s'.desc →
    exec i s = .next t → exec i s' = .next t' →
    ∀ r, readReg r t = readReg r t' ∨ (readReg r t = readReg r s ∧ readReg r t' = readReg r s')

/-- R45, R46: what a command does, and what any host write does, is to replace the machine state of the CFP by a
function of that state with the configuration as its argument. It looks at nothing of the host's side (its program, the
index into it), and changes neither that nor the configuration. (That `State` holds the three side by side is the model's
choice, log 15.) -/
def Obligations.EffectsAreFunctionsOfStateAndConfiguration : Prop :=
  (∀ i : Instr, ∃ f : Configuration → CfpState → CfpState, ∀ s : State,
    exec i s = .next { s with toCfpState := f s.toConfiguration s.toCfpState }) ∧
  ∀ n v : Nat,
    (∃ r, ∀ s : State, perform (.wr n v) s = .refused r) ∨
    ∃ f : Configuration → CfpState → CfpState, ∀ s : State,
      perform (.wr n v) s = .next { s with toCfpState := f s.toConfiguration s.toCfpState }

/-- R44, R209: no command's behaviour depends on `STATUS`; each overwrites it. -/
def Obligations.CommandsIgnoreStatus : Prop :=
  ∀ (i : Instr) (s : State) (c : Status), exec i { s with status := c } = exec i s

/-! ### System commands (spec/45_system.md) -/

/-- R190: `NOP` writes `STATUS` and nothing else; the word of 32 zero bits is this command. -/
def Obligations.NopSetsStatusOk : Prop :=
  decode 0x00000000#32 = .ok .nop ∧ ∀ s : State, exec .nop s = .next { s with status := .ok }

/-- R191: `CLRFB` zeroes every byte of the frame buffer, whatever `FLEN` is. -/
def Obligations.ClrfbZeroesTheBuffer : Prop :=
  decode 0x01000000#32 = .ok .clrfb ∧
  ∀ s : State, ∃ fb' : Vector Byte Config.bufCap, exec .clrfb s = .next { s with fb := fb', status := .ok } ∧
    ∀ i : Fin Config.bufCap, fb'[i] = 0

/-- R192: `MOVMF k` copies message `k` into the first eight bytes of the frame buffer and sets `FLEN` to 8; it does
not look at `MSGCNT`; an index of 5 or more is `BadOperand`. -/
def Obligations.MovmfCopiesTheMessage : Prop :=
  (∀ k : Nat, k ≤ 7 → decode (BitVec.ofNat 32 (0x02000000 + k)) = .ok (.movmf k)) ∧
  ∀ s : State,
    (∀ k : Fin 5, ∃ fb' : Vector Byte Config.bufCap, exec (.movmf k) s = .next { s with fb := fb', flen := 8, status := .ok } ∧
      (∀ i : Fin 8, fb'.toList[i.val]? = some s.msg[k][i]) ∧
      ∀ i : Nat, 8 ≤ i → fb'.toList[i]? = s.fb.toList[i]?) ∧
    ∀ k : Nat, 5 ≤ k → exec (.movmf k) s = .next { s with status := .fatal .badOperand }

/-- R193: `MOVFM k` copies the first eight bytes of the frame buffer into message `k`, and no other byte of the bank
changes; an index of 5 or more, and an `FLEN` other than 8, are `BadOperand`. -/
def Obligations.MovfmCopiesTheBuffer : Prop :=
  (∀ k : Nat, k ≤ 7 → decode (BitVec.ofNat 32 (0x03000000 + k)) = .ok (.movfm k)) ∧
  ∀ s : State,
    (∀ k : Fin 5, s.flen = 8 →
      ∃ msg' : Vector (Vector Byte 8) 5, exec (.movfm k) s = .next { s with msg := msg', status := .ok } ∧
        ∀ (j : Fin 5) (i : Fin 8),
          some msg'[j][i] = if j = k then s.fb.toList[i.val]? else some s.msg[j][i]) ∧
    ∀ k : Nat, 5 ≤ k ∨ s.flen ≠ 8 →
      exec (.movfm k) s = .next { s with status := .fatal .badOperand }

/-! ### The bit-field extractor (spec/41_bfx.md) -/

/-- R110, R111, R62: the range is checked first, then the length; when both hold, the result is below `2^lengthBits`
and its bit `i` is the bit with global number `8*byteIndex + bitIndex + i`. -/
def Obligations.ExtractBitsIsTheField : Prop :=
  ∀ (len : Nat) (buf : Vector Byte len) (total y b l : Nat), total ≤ len →
    (8 * total < 8 * y + b + l → extractBits buf total y b l = .error .outOfRange) ∧
    (8 * y + b + l ≤ 8 * total → (l = 0 ∨ 64 < l) → extractBits buf total y b l = .error .invalidLength) ∧
    (8 * y + b + l ≤ 8 * total → 1 ≤ l → l ≤ 64 →
      ∃ r, extractBits buf total y b l = .ok r ∧ r < 2 ^ l ∧
        ∀ i, i < l → r.testBit i = bufBit buf (8 * y + b + i))

/-- R111 (f): bytes at or beyond `totalLenBytes` have no influence. -/
def Obligations.ExtractBitsReadsOnlyTheTelegram : Prop :=
  ∀ (len : Nat) (buf buf' : Vector Byte len) (total y b l : Nat), total ≤ len →
    (∀ g, g < 8 * total → bufBit buf g = bufBit buf' g) →
    extractBits buf total y b l = extractBits buf' total y b l

/-- R113: `packBits` makes the same two checks; when both hold, a bit inside the field is ORed with the value's bit and
every other bit of the buffer is as it was. -/
def Obligations.PackBitsOrsTheField : Prop :=
  ∀ (len : Nat) (buf : Vector Byte len) (total y b l v : Nat), total ≤ len →
    (8 * total < 8 * y + b + l → packBits buf total y b l v = .error .outOfRange) ∧
    (8 * y + b + l ≤ 8 * total → (l = 0 ∨ 64 < l) → packBits buf total y b l v = .error .invalidLength) ∧
    (8 * y + b + l ≤ 8 * total → 1 ≤ l → l ≤ 64 →
      ∃ buf', packBits buf total y b l v = .ok buf' ∧
        ∀ g, g < 8 * len →
          bufBit buf' g =
            (bufBit buf g ||
              (decide (8 * y + b ≤ g ∧ g < 8 * y + b + l) && v.testBit (g - (8 * y + b)))))

/-- R117 (b), (d): extracting what was packed gives the old field ORed with the masked value; into a zero buffer, the
value itself. -/
def Obligations.ExtractAfterPack : Prop :=
  ∀ (len : Nat) (buf buf' : Vector Byte len) (total y b l v : Nat), total ≤ len →
    packBits buf total y b l v = .ok buf' →
    (∃ old, extractBits buf total y b l = .ok old ∧
      extractBits buf' total y b l = .ok (old ||| (v &&& mask l))) ∧
    (buf = Vector.replicate len 0 → v < 2 ^ l → extractBits buf' total y b l = .ok v)

/-- R117 (e): packing does not disturb a field that is disjoint from the packed one. -/
def Obligations.PackKeepsDisjointFields : Prop :=
  ∀ (len : Nat) (buf buf' : Vector Byte len) (total y b l v y' b' l' : Nat), total ≤ len →
    packBits buf total y b l v = .ok buf' →
    (8 * y' + b' + l' ≤ 8 * y + b ∨ 8 * y + b + l ≤ 8 * y' + b') →
    extractBits buf' total y' b' l' = extractBits buf total y' b' l'

/-- R112: `XBITS` puts the field of the frame buffer into `RES`; a range error comes before a length error, and an
error leaves `RES` as it was. -/
def Obligations.XbitsReadsTheField : Prop :=
  (∀ y b l : Nat, y ≤ 255 → b ≤ 7 → l ≤ 127 →
    decode (BitVec.ofNat 32 (0x10000000 + 0x10000 * y + 0x100 * b + l)) = .ok (.xbits y b l)) ∧
  ∀ (s : State) (y b l : Nat), s.Inv →
    (8 * y + b + l ≤ 8 * s.flen.toNat → 1 ≤ l → l ≤ 64 →
      ∃ r : BitVec 64, exec (.xbits y b l) s = .next { s with res := r, status := .ok } ∧
        ∀ i, i < 64 → r.getLsbD i = (decide (i < l) && bufBit s.fb (8 * y + b + i))) ∧
    (8 * s.flen.toNat < 8 * y + b + l →
      exec (.xbits y b l) s = .next { s with status := .fatal .outOfRange }) ∧
    (8 * y + b + l ≤ 8 * s.flen.toNat → (l = 0 ∨ 64 < l) →
      exec (.xbits y b l) s = .next { s with status := .fatal .invalidLength })

/-- R114: `PBITS` ORs the low bits of `VAL` into the field of the frame buffer and changes no other bit; its errors are
those of `XBITS`. -/
def Obligations.PbitsOrsTheField : Prop :=
  (∀ y b l : Nat, y ≤ 255 → b ≤ 7 → l ≤ 127 →
    decode (BitVec.ofNat 32 (0x11000000 + 0x10000 * y + 0x100 * b + l)) = .ok (.pbits y b l)) ∧
  ∀ (s : State) (y b l : Nat), s.Inv →
    (8 * y + b + l ≤ 8 * s.flen.toNat → 1 ≤ l → l ≤ 64 →
      ∃ fb' : Vector Byte Config.bufCap, exec (.pbits y b l) s = .next { s with fb := fb', status := .ok } ∧
        (∀ g, g < 8 * Config.bufCap →
          bufBit fb' g =
            (bufBit s.fb g ||
              (decide (8 * y + b ≤ g ∧ g < 8 * y + b + l) && s.val.getLsbD (g - (8 * y + b))))) ∧
        ∀ i : Fin Config.bufCap, i.val < y ∨ y + numBytes b l ≤ i.val → fb'[i] = s.fb[i]) ∧
    (8 * s.flen.toNat < 8 * y + b + l →
      exec (.pbits y b l) s = .next { s with status := .fatal .outOfRange }) ∧
    (8 * y + b + l ≤ 8 * s.flen.toNat → (l = 0 ∨ 64 < l) →
      exec (.pbits y b l) s = .next { s with status := .fatal .invalidLength })

/-- R116: `SEXT` copies bit `lengthBits - 1` of `RES` into every bit above it and ignores what was there; a length of 0
or above 64 is `InvalidLength`. -/
def Obligations.SextExtendsTheSign : Prop :=
  (∀ l : Nat, l ≤ 127 → decode (BitVec.ofNat 32 (0x12000000 + l)) = .ok (.sext l)) ∧
  ∀ (s : State) (l : Nat),
    (1 ≤ l → l ≤ 64 →
      ∃ r : BitVec 64, exec (.sext l) s = .next { s with res := r, status := .ok } ∧
        ∀ i, i < 64 → r.getLsbD i = s.res.getLsbD (if i < l then i else l - 1)) ∧
    (l = 0 ∨ 64 < l → exec (.sext l) s = .next { s with status := .fatal .invalidLength })

/-! ### The DTC catalog (spec/42_catalog.md) -/

/-- R132: `LKIDX` writes the lowest index that holds the pair, or `0xFFFF` and the warning `NotFound`. -/
def Obligations.LkidxFindsTheFirst : Prop :=
  decode 0x20000000#32 = .ok .lkidx ∧
  ∀ s : State, s.Inv →
    (∀ i : Nat, s.cat[i]? = some (CatEntry.mk s.spn s.fmi) → (∀ j : Nat, j < i → s.cat[j]? ≠ some (CatEntry.mk s.spn s.fmi)) →
      ∃ x : BitVec 16, exec .lkidx s = .next { s with idx := x, status := .ok } ∧
        x.toNat = i ∧ i ≤ 1023) ∧
    ((∀ i : Nat, s.cat[i]? ≠ some (CatEntry.mk s.spn s.fmi)) →
      exec .lkidx s = .next { s with idx := 0xFFFF, status := .notFound })

/-- R133: `LKENT` fetches the entry at `IDX`; an index at or beyond `CATLEN` is `CatalogIndexOutOfRange`. -/
def Obligations.LkentFetchesTheEntry : Prop :=
  decode 0x21000000#32 = .ok .lkent ∧
  ∀ s : State,
    (∀ e, s.cat[s.idx.toNat]? = some e →
      exec .lkent s = .next { s with spn := e.spn, fmi := e.fmi, status := .ok }) ∧
    (s.cat.length ≤ s.idx.toNat →
      exec .lkent s = .next { s with status := .fatal .catalogIndexOutOfRange })

/-- R134 (b), (c), (d): a found index holds the pair that was looked up, is in the catalog, and is the lowest that
does. -/
def Obligations.LookupsAgree : Prop :=
  ∀ (cat : List CatEntry) (spn : BitVec 32) (fmi : BitVec 8) (i : Nat),
    (lookupIndex cat spn fmi = some i → lookupEntry cat i = .ok ⟨spn, fmi⟩ ∧ i < cat.length) ∧
    (lookupEntry cat i = .ok ⟨spn, fmi⟩ →
      ∃ j, j ≤ i ∧ lookupIndex cat spn fmi = some j ∧
        (j = i ↔ ∀ k, k < i → lookupEntry cat k ≠ .ok ⟨spn, fmi⟩))

/-- R134 (b) as commands: after an `LKIDX` that found its pair, `LKENT` leaves `SPN` and `FMI` as they were. -/
def Obligations.LkentAfterLkidx : Prop :=
  ∀ s t : State, s.Inv → exec .lkidx s = .next t → t.status = .ok → exec .lkent t = .next t

/-! ### The DTC codec (spec/43_dtc_codec.md) -/

/-- R146 with R141, R143, R144, R145 and the layout R92: `ENC` stores the count of messages, the misses, and in every
message stored the fields of the wire layout; the messages beyond keep their bytes. -/
def Obligations.EncStoresTheMessages : Prop :=
  decode 0x30000000#32 = .ok .enc ∧
  ∀ s : State, s.Inv →
    ∃ (msg' : Vector (Vector Byte 8) 5) (msgcnt' : BitVec 3) (enfcnt' : BitVec 5),
      exec .enc s = .next { s with msg := msg', msgcnt := msgcnt', enfcnt := enfcnt', status := .ok } ∧
      msgcnt'.toNat = expectedCount s.ctrl s.adlcnt.toNat ∧
      enfcnt'.toNat = expectedMisses s s.adlcnt.toNat ∧
      ∀ k : Fin 5,
        (expectedCount s.ctrl s.adlcnt.toNat ≤ k.val → msg'[k] = s.msg[k]) ∧
        (k.val < expectedCount s.ctrl s.adlcnt.toNat →
          bits (memRead msg'[k] 0 8) 63 58 = 0 ∧
          bits (memRead msg'[k] 0 8) 57 56 = k.val % 4 ∧
          bits (memRead msg'[k] 0 8) 55 54 = expectedCount s.ctrl s.adlcnt.toNat % 4 ∧
          bits (memRead msg'[k] 0 8) 53 50 = s.lamps.toNat ∧
          bits (memRead msg'[k] 0 8) 49 40 = expectedSlot s (5 * k.val) ∧
          bits (memRead msg'[k] 0 8) 39 30 = expectedSlot s (5 * k.val + 1) ∧
          bits (memRead msg'[k] 0 8) 29 20 = expectedSlot s (5 * k.val + 2) ∧
          bits (memRead msg'[k] 0 8) 19 10 = expectedSlot s (5 * k.val + 3) ∧
          bits (memRead msg'[k] 0 8) 9 0 = expectedSlot s (5 * k.val + 4))

/-- R142: the value `W(k)` is what eight `packBits` calls into a zero buffer at the places of R93 produce; the two
narrow fields are cut by the packing (R145). -/
def Obligations.MessageIsEightPacks : Prop :=
  ∀ (cat : List CatEntry) (lamps : BitVec 4) (dtcs : List DtcEntry) (mc k : Nat), cat.length ≤ 1024 →
    packAll (Vector.replicate 8 0) [
      (⟨7, 0, 2⟩, k), (⟨6, 6, 2⟩, mc), (⟨6, 2, 4⟩, lamps.toNat),
      (⟨5, 0, 10⟩, slotIndex cat dtcs (5 * k)), (⟨3, 6, 10⟩, slotIndex cat dtcs (5 * k + 1)),
      (⟨2, 4, 10⟩, slotIndex cat dtcs (5 * k + 2)), (⟨1, 2, 10⟩, slotIndex cat dtcs (5 * k + 3)),
      (⟨0, 0, 10⟩, slotIndex cat dtcs (5 * k + 4))] =
    .ok (messageBytes (messageValue cat lamps dtcs mc k))

/-- R93: the extractor's addressing and the wire layout are the same numbering. -/
def Obligations.ExtractorReadsTheLayout : Prop :=
  ∀ m : Vector Byte 8,
    extractBits m 8 0 0 10 = .ok (bits (memRead m 0 8) 9 0) ∧
    extractBits m 8 1 2 10 = .ok (bits (memRead m 0 8) 19 10) ∧
    extractBits m 8 2 4 10 = .ok (bits (memRead m 0 8) 29 20) ∧
    extractBits m 8 3 6 10 = .ok (bits (memRead m 0 8) 39 30) ∧
    extractBits m 8 5 0 10 = .ok (bits (memRead m 0 8) 49 40) ∧
    extractBits m 8 6 2 4 = .ok (bits (memRead m 0 8) 53 50) ∧
    extractBits m 8 6 6 2 = .ok (bits (memRead m 0 8) 55 54) ∧
    extractBits m 8 7 0 2 = .ok (bits (memRead m 0 8) 57 56) ∧
    extractBits m 8 7 2 6 = .ok (bits (memRead m 0 8) 63 58)

/-- R152 with R151: `DEC` gives the lamps of message 0, the entries of the valid slots in order with occurrence count
0, their number, and the number of skipped indices; entries of the list beyond keep their values; no message is
`BadOperand`, and more than 20 entries are `ListOverflow`. -/
def Obligations.DecReadsTheMessages : Prop :=
  decode 0x31000000#32 = .ok .dec ∧
  ∀ s : State, s.Inv →
    (s.msgcnt = 0 → exec .dec s = .next { s with status := .fatal .badOperand }) ∧
    (s.msgcnt ≠ 0 → 20 < (validEntries s s.msgcnt.toNat).length →
      exec .dec s = .next { s with status := .fatal .listOverflow }) ∧
    (s.msgcnt ≠ 0 → (validEntries s s.msgcnt.toNat).length ≤ 20 →
      ∃ (lamps' : BitVec 4) (adl' : Vector DtcEntry 20) (adlcnt' dskip' : BitVec 5),
        exec .dec s = .next { s with
          lamps := lamps', adl := adl', adlcnt := adlcnt', dskip := dskip', status := .ok } ∧
        lamps'.toNat = bits (messageWord s 0) 53 50 ∧
        adlcnt'.toNat = (validEntries s s.msgcnt.toNat).length ∧
        dskip'.toNat = skippedSlots s s.msgcnt.toNat ∧
        ∀ i : Fin 20,
          adl'[i] = match (validEntries s s.msgcnt.toNat)[i.val]? with
            | some e => ⟨e.spn, e.fmi, 0⟩
            | none => s.adl[i])

/-- R150: `DEC` does not read the sequence field, the count field, bits 63:58, or the lamp field of a message other
than the first. -/
def Obligations.DecIgnoresTheHeaders : Prop :=
  ∀ (s t : State) (bank : Vector (Vector Byte 8) 5),
    (∀ k : Fin 5, bits (memRead bank[k] 0 8) 49 0 = bits (memRead s.msg[k] 0 8) 49 0) →
    bits (memRead bank[0] 0 8) 53 50 = bits (memRead s.msg[0] 0 8) 53 50 →
    exec .dec s = .next t → exec .dec { s with msg := bank } = .next { t with msg := bank }

/-- R155, on the functions: decoding what was encoded gives the lamps and the list back, for both message-count
formulas, when every entry is found at an index other than 1023. (The number of messages is the length of their list,
log 13.) -/
def Obligations.DecodeOfEncode : Prop :=
  ∀ (ceilcnt : Bool) (lamps : BitVec 4) (dtcs : List DtcEntry) (cat : List CatEntry),
    cat.length ≤ 1024 → dtcs.length ≤ 20 →
    (∀ e ∈ dtcs, ∃ i, lookupIndex cat e.spn e.fmi = some i ∧ i ≠ 1023) →
    decodeDtcs (encodeDtcs ceilcnt lamps dtcs cat) cat =
      .ok ⟨lamps, dtcs.map fun e => ⟨e.spn, e.fmi⟩, 0⟩

/-- R156, R157 (last sentence), with no condition on the entries: an entry that is not in the catalog, or is found at
index 1023, is missing from the decoded list, the entries after it move up, and nothing is counted as skipped. (The
number of messages is the length of their list, log 13.) -/
def Obligations.DecodeOfEncodeDropsTheUnencodable : Prop :=
  ∀ (ceilcnt : Bool) (lamps : BitVec 4) (dtcs : List DtcEntry) (cat : List CatEntry),
    cat.length ≤ 1024 → dtcs.length ≤ 20 →
    decodeDtcs (encodeDtcs ceilcnt lamps dtcs cat) cat =
      .ok ⟨lamps, (dtcs.filter fun e =>
        (lookupIndex cat e.spn e.fmi).any fun i => i != 1023).map fun e => ⟨e.spn, e.fmi⟩, 0⟩

/-- R155, as commands: after an `ENC`, a `DEC` on any state with the same messages, message count and catalog restores
the lamps and the list, with occurrence counts 0, under the same condition on the entries. -/
def Obligations.DecAfterEnc : Prop :=
  ∀ s t u : State, s.Inv → exec .enc s = .next t →
    (∀ i : Fin 20, i.val < s.adlcnt.toNat →
      ∃ x, lookupIndex s.cat s.adl[i].spn s.adl[i].fmi = some x ∧ x ≠ 1023) →
    u.msg = t.msg → u.msgcnt = t.msgcnt → u.cat = t.cat →
    ∃ v, exec .dec u = .next v ∧ t.enfcnt = 0 ∧ v.status = .ok ∧ v.lamps = s.lamps ∧
      v.adlcnt = s.adlcnt ∧ v.dskip = 0 ∧
      ∀ i : Fin 20, i.val < s.adlcnt.toNat → v.adl[i] = ⟨s.adl[i].spn, s.adl[i].fmi, 0⟩

/-! ### The telegram descriptor interpreter (spec/44_telegram.md) -/

/-- R170: the first signal of the descriptor whose name equals the key, or `SignalNotFound`. (R170 returns the index;
that `findSignal` answers the record at that index is deduced, log 13.) -/
def Obligations.FindSignalTakesTheFirst : Prop :=
  ∀ (x : Descriptor) (name : BitVec 64),
    (∀ g, findSignal x name = .ok g ↔
      ∃ i, x.sigs[i]? = some g ∧ g.name = name ∧ ∀ (j : Nat) (h : Signal), j < i → x.sigs[j]? = some h → h.name ≠ name) ∧
    (findSignal x name = .error .signalNotFound ↔ ∀ g ∈ x.sigs, g.name ≠ name)

/-- R176 with R172, R173: `XSIG d` puts the raw bits of the first signal named `NAME` into `RES`; its errors are tested
in the order of R206, against the smaller of the declared length and `FLEN`. -/
def Obligations.XsigReadsTheSignal : Prop :=
  (∀ d : Nat, d ≤ 255 → decode (BitVec.ofNat 32 (0x40000000 + d)) = .ok (.xsig d)) ∧
  ∀ (s : State) (d : Nat), s.Inv →
    (s.desc.length ≤ d → exec (.xsig d) s = .next { s with status := .fatal .badOperand }) ∧
    ∀ x, s.desc[d]? = some x →
      ((∀ g ∈ x.sigs, g.name ≠ s.name) →
        exec (.xsig d) s = .next { s with status := .fatal .signalNotFound }) ∧
      ∀ g, findSignal x s.name = .ok g →
        ((g.byte1.toNat = 0 ∨ g.bit1.toNat = 0 ∨ 8 < g.bit1.toNat) →
          exec (.xsig d) s = .next { s with status := .fatal .badDescriptor }) ∧
        ∀ y b : Nat, g.byte1.toNat = y + 1 → g.bit1.toNat = b + 1 → b ≤ 7 →
          (8 * min x.lenBytes.toNat s.flen.toNat < 8 * y + b + g.lengthBits.toNat →
            exec (.xsig d) s = .next { s with status := .fatal .outOfRange }) ∧
          (8 * y + b + g.lengthBits.toNat ≤ 8 * min x.lenBytes.toNat s.flen.toNat →
            ((g.lengthBits.toNat = 0 ∨ 64 < g.lengthBits.toNat) →
              exec (.xsig d) s = .next { s with status := .fatal .invalidLength }) ∧
            (1 ≤ g.lengthBits.toNat → g.lengthBits.toNat ≤ 64 →
              ∃ r : BitVec 64, exec (.xsig d) s = .next { s with res := r, status := .ok } ∧
                ∀ i, i < 64 →
                  r.getLsbD i = (decide (i < g.lengthBits.toNat) && bufBit s.fb (8 * y + b + i))))

/-- R178 with R172, R36: `SIGLOC d` puts the 0-based location of the signal into `LOC`; its errors are tested in the
order of R206, against the declared length alone. -/
def Obligations.SiglocLocatesTheSignal : Prop :=
  (∀ d : Nat, d ≤ 255 → decode (BitVec.ofNat 32 (0x41000000 + d)) = .ok (.sigloc d)) ∧
  ∀ (s : State) (d : Nat),
    (s.desc.length ≤ d → exec (.sigloc d) s = .next { s with status := .fatal .badOperand }) ∧
    ∀ x, s.desc[d]? = some x →
      ((∀ g ∈ x.sigs, g.name ≠ s.name) →
        exec (.sigloc d) s = .next { s with status := .fatal .signalNotFound }) ∧
      ∀ g, findSignal x s.name = .ok g →
        ((g.byte1.toNat = 0 ∨ g.bit1.toNat = 0 ∨ 8 < g.bit1.toNat) →
          exec (.sigloc d) s = .next { s with status := .fatal .badDescriptor }) ∧
        ∀ y b : Nat, g.byte1.toNat = y + 1 → g.bit1.toNat = b + 1 → b ≤ 7 →
          (8 * x.lenBytes.toNat < 8 * y + b + g.lengthBits.toNat →
            exec (.sigloc d) s = .next { s with status := .fatal .outOfRange }) ∧
          (8 * y + b + g.lengthBits.toNat ≤ 8 * x.lenBytes.toNat →
            ((g.lengthBits.toNat = 0 ∨ 64 < g.lengthBits.toNat) →
              exec (.sigloc d) s = .next { s with status := .fatal .invalidLength }) ∧
            (1 ≤ g.lengthBits.toNat → g.lengthBits.toNat ≤ 64 →
              ∃ p : BitVec 24, exec (.sigloc d) s = .next { s with loc := p, status := .ok } ∧
                bits p.toNat 23 16 = y ∧ bits p.toNat 15 11 = 0 ∧ bits p.toNat 10 8 = b ∧
                bits p.toNat 7 7 = 0 ∧ bits p.toNat 6 0 = g.lengthBits.toNat))

/-- R180 with R179, R181: `PHYS d` on an `Integer` signal leaves in `PVI` the exact sum of the unsigned `RES` and the
signed offset; on a `FloatScaled` one, in `PVF` what the open parameter `PhysFloat` gives for the three arguments,
whatever it is. The other register keeps its value. -/
def Obligations.PhysComputesTheValue : Prop :=
  (∀ d : Nat, d ≤ 255 → decode (BitVec.ofNat 32 (0x42000000 + d)) = .ok (.phys d)) ∧
  ∀ (s : State) (d : Nat),
    (s.desc.length ≤ d → exec (.phys d) s = .next { s with status := .fatal .badOperand }) ∧
    ∀ x, s.desc[d]? = some x →
      ((∀ g ∈ x.sigs, g.name ≠ s.name) →
        exec (.phys d) s = .next { s with status := .fatal .signalNotFound }) ∧
      ∀ g, findSignal x s.name = .ok g →
        (g.kind = .integer →
          ∃ p : BitVec 66, exec (.phys d) s = .next { s with pvi := p, pvk := 0, status := .ok } ∧
            p.toInt = (s.res.toNat : Int) + g.offset.toInt) ∧
        (g.kind = .floatScaled →
          exec (.phys d) s =
            .next { s with pvf := Config.physFloat s.res g.scaling g.offset, pvk := 1, status := .ok })

/-- R183: when `SIGLOC d` ends `OK`, the `XBITS` word made of `LOC` is a command that does exactly what `XSIG d` does;
and with `FLEN` at least the declared length both end `OK`. -/
def Obligations.SiglocThenXbitsIsXsig : Prop :=
  ∀ (s t : State) (d : Nat), s.Inv → exec (.sigloc d) s = .next t → t.status = .ok →
    ∃ i, decode (0x10000000#32 ||| t.loc.setWidth 32) = .ok i ∧ exec i s = exec (.xsig d) s ∧
      ∀ x, s.desc[d]? = some x → x.lenBytes.toNat ≤ s.flen.toNat →
        ∃ u, exec (.xsig d) s = .next u ∧ u.status = .ok

/-! ### The assembler (spec/30_encoding.md section 8) -/

/-- R101: a line the assembler accepts is a list of transactions that the CFP performs: none is refused. -/
def Obligations.AssembledLinesAreNotRefused : Prop :=
  ∀ (line : AsmLine) (es : List HostEvent), assembleLine line = some es →
    ∀ e ∈ es, ∀ s : State, ∃ t, perform e s = .next t

/-- R100, R101: the line of a command is one write of its word to `CMD`, and the step over that write at the head of the
queue (the model's own, log 1) is the command; a line whose operands do not fit their fields is rejected. -/
def Obligations.AssembledCommandRuns : Prop :=
  ∀ i : Instr,
    (i.WellFormed →
      assembleLine (.command i) = some [.wr 0 (encode i).toNat] ∧
      ∀ (s : State) (rest : List HostEvent), s.pending = .wr 0 (encode i).toNat :: rest →
        step s = exec i { s with pending := rest }) ∧
    (¬ i.WellFormed → assembleLine (.command i) = none)

/-- R103: the expansions of the pseudo-instructions, each a list of host writes in order. -/
def Obligations.PseudoInstructionsExpand : Prop :=
  (∀ w, w < 2 ^ 32 → assembleLine (.cmd w) = some [.wr 0 w]) ∧
  (∀ n, n < 2 ^ 8 → assembleLine (.setlen n) = some [.wr 3 n]) ∧
  (∀ bytes : List Nat, bytes.length ≤ Config.bufCap → (∀ v ∈ bytes, v < 2 ^ 8) →
    assembleLine (.ldfb bytes) =
      some ((bytes.zipIdx.map fun (v, i) => .wr (0x40 + i) v) ++ [.wr 3 bytes.length])) ∧
  (∀ (k : Nat) (bytes : List Nat), k < 5 → bytes.length = 8 → (∀ v ∈ bytes, v < 2 ^ 8) →
    assembleLine (.ldmsg k bytes) = some (bytes.zipIdx.map fun (v, i) => .wr (0x80 + 8 * k + i) v)) ∧
  (∀ i spn fmi, i < 20 → spn < 2 ^ 32 → fmi < 2 ^ 8 →
    assembleLine (.adl i spn fmi) =
      some [.wr (0x100 + 4 * i) spn, .wr (0x101 + 4 * i) fmi, .wr (0x102 + 4 * i) 0]) ∧
  (∀ (text : List Char) (key : Nat), nameKey text = some key → key < 2 ^ 64 →
    assembleLine (.name text) = some [.wr 0x15 key]) ∧
  assembleLine .clrst = some [.wr 0 0]

/-- R102: byte `i` of the key of a text of one to eight ASCII characters is the code of its character `i`, and the
bytes beyond the text are 0. -/
def Obligations.NameKeyHoldsTheCharacters : Prop :=
  ∀ text : List Char, 1 ≤ text.length → text.length ≤ 8 → (∀ c ∈ text, c.toNat < 128) →
    ∃ k, nameKey text = some k ∧ k < 2 ^ 64 ∧
      ∀ i, i < 8 → bits k (8 * i + 7) (8 * i) = match text[i]? with
        | some c => c.toNat
        | none => 0
end

