-- ==== Sys2Proof/Laws/Bits.lean ====
section
/-! SUPPORT. Bytes and bits: the bit string a buffer is (R62), read and written through the little-endian operations
of spec/00_scope.md R14. -/

namespace Sys2Proof.Machine

theorem bits_lt (v hi lo : Nat) : bits v hi lo < 2 ^ (hi - lo + 1) :=
  Nat.mod_lt _ (Nat.two_pow_pos _)

/-- A bit of a field of a number is the bit above it (R12). -/
theorem bits_testBit (v hi lo i : Nat) :
    (bits v hi lo).testBit i = (decide (i < hi - lo + 1) && v.testBit (lo + i)) := by
  simp only [bits, Nat.testBit_mod_two_pow]
  rw [← Nat.shiftRight_eq_div_pow, Nat.testBit_shiftRight]

theorem and_mask (v n : Nat) : v &&& mask n = v % 2 ^ n := Nat.and_two_pow_sub_one_eq_mod v n

theorem mask_testBit (n i : Nat) : (mask n).testBit i = decide (i < n) := Nat.testBit_two_pow_sub_one n i

/-- The bits of a little-endian value are the bits of its bytes in order (R61, R62). -/
theorem leValue_testBit (l : List Byte) (k : Nat) :
    (leValue l).testBit k = (l.getD (k / 8) 0).getLsbD (k % 8) := by
  induction l generalizing k with
  | nil => simp [leValue]
  | cons b rest ih =>
    rw [leValue, Nat.add_comm, Nat.testBit_two_pow_mul_add _ b.isLt]
    by_cases h : k < 8
    · simp [h, Nat.div_eq_of_lt h, Nat.mod_eq_of_lt h, BitVec.getElem_eq_testBit_toNat]
    · obtain ⟨m, rfl⟩ : ∃ m, k = m + 8 := ⟨k - 8, by omega⟩
      simp [h, ih]

theorem leValue_lt (l : List Byte) : leValue l < 2 ^ (8 * l.length) := by
  induction l with
  | nil => simp [leValue]
  | cons b rest ih =>
    have hb := b.isLt
    rw [leValue, List.length_cons, Nat.mul_add, Nat.pow_add]
    omega

section
variable {len : Nat} (buf : Vector Byte len)

/-- Outside a buffer there are no ones. -/
theorem bufBit_outside {g : Nat} (h : 8 * len ≤ g) : bufBit buf g = false := by
  have : len ≤ g / 8 := by omega
  simp [bufBit, this]

/-- Bit `b` of byte `i` is bit `8i + b` of the buffer (R62). -/
theorem getElem_getLsbD {i b : Nat} (hi : i < len) (hb : b < 8) :
    buf[i].getLsbD b = bufBit buf (8 * i + b) := by
  have h1 : (8 * i + b) / 8 = i := by omega
  have h2 : (8 * i + b) % 8 = b := by omega
  simp [bufBit, h1, h2, hi]

/-- `MemRead` reads the bits from `8i` on, `8n` of them (R14). -/
theorem memRead_testBit (i n k : Nat) :
    (memRead buf i n).testBit k = (decide (k < 8 * n) && bufBit buf (8 * i + k)) := by
  have h1 : (8 * i + k) / 8 = i + k / 8 := by omega
  have h2 : (8 * i + k) % 8 = k % 8 := by omega
  have h3 : (k < 8 * n) ↔ k / 8 < n := by omega
  simp only [memRead, leValue_testBit, bufBit, h1, h2, h3, List.getD_eq_getElem?_getD,
    List.getElem?_take, List.getElem?_drop]
  by_cases h : k / 8 < n <;> simp [h]

theorem memRead_lt (i n : Nat) : memRead buf i n < 2 ^ (8 * n) := by
  apply Nat.lt_of_lt_of_le (leValue_lt _)
  apply Nat.pow_le_pow_right (by decide)
  simp

/-- What `MemOr` leaves in the bits of a buffer (R14). -/
theorem memOr_bufBit (i n v g : Nat) (hg : g < 8 * len) :
    bufBit (memOr buf i n v) g =
      (bufBit buf g || (decide (8 * i ≤ g ∧ g < 8 * (i + n)) && v.testBit (g - 8 * i))) := by
  have hb : g / 8 < len := by omega
  have hm : g % 8 < 8 := Nat.mod_lt _ (by decide)
  simp only [bufBit, memOr, List.getD_eq_getElem?_getD, Vector.getElem?_toList, Vector.getElem?_mapIdx]
  simp only [hb, Vector.getElem?_eq_getElem, Option.map_some, Option.getD_some]
  have hc : (i ≤ g / 8 ∧ g / 8 < i + n) ↔ (8 * i ≤ g ∧ g < 8 * (i + n)) := by omega
  by_cases h : i ≤ g / 8 ∧ g / 8 < i + n
  · have he : 8 * (g / 8 - i) + g % 8 = g - 8 * i := by omega
    simp only [h, hc.mp h, and_self, if_true, BitVec.getLsbD_or, BitVec.getLsbD_ofNat,
      Nat.testBit_shiftRight, he, hm, decide_true, Bool.true_and]
  · have h' := hc.not.mp h
    simp [h, h']

/-- What `MemWrite` leaves in the bits of a buffer (R14). -/
theorem memWrite_bufBit (i n v g : Nat) (hg : g < 8 * len) :
    bufBit (memWrite buf i n v) g =
      if 8 * i ≤ g ∧ g < 8 * (i + n) then v.testBit (g - 8 * i) else bufBit buf g := by
  have hb : g / 8 < len := by omega
  have hm : g % 8 < 8 := Nat.mod_lt _ (by decide)
  simp only [bufBit, memWrite, List.getD_eq_getElem?_getD, Vector.getElem?_toList, Vector.getElem?_mapIdx]
  simp only [hb, Vector.getElem?_eq_getElem, Option.map_some, Option.getD_some]
  have hc : (i ≤ g / 8 ∧ g / 8 < i + n) ↔ (8 * i ≤ g ∧ g < 8 * (i + n)) := by omega
  by_cases h : i ≤ g / 8 ∧ g / 8 < i + n
  · have he : 8 * (g / 8 - i) + g % 8 = g - 8 * i := by omega
    simp only [h, hc.mp h, and_self, if_true, BitVec.getLsbD_ofNat,
      Nat.testBit_shiftRight, he, hm, decide_true, Bool.true_and]
  · have h' := hc.not.mp h
    simp [h, h']

end

/-- Buffers with the same bits are the same buffer. -/
theorem buf_ext {len : Nat} {buf buf' : Vector Byte len}
    (h : ∀ g, g < 8 * len → bufBit buf g = bufBit buf' g) : buf = buf' := by
  apply Vector.ext
  intro i hi
  apply BitVec.eq_of_getLsbD_eq
  intro b hb
  rw [getElem_getLsbD _ hi hb, getElem_getLsbD _ hi hb]
  exact h _ (by omega)

/-- The zero buffer has no ones. -/
theorem zero_bufBit (len g : Nat) : bufBit (Vector.replicate len (0 : Byte)) g = false := by
  by_cases h : g / 8 < len <;> simp [bufBit, h]

/-- A message stored from a 64-bit value reads back as that value (R63). -/
theorem memRead_messageBytes (w : Nat) (h : w < 2 ^ 64) : memRead (messageBytes w) 0 8 = w := by
  apply Nat.eq_of_testBit_eq
  intro k
  rw [memRead_testBit, messageBytes]
  by_cases hk : k < 64
  · rw [memWrite_bufBit _ _ _ _ _ (by omega)]
    simp [hk]
  · have : w < 2 ^ k := Nat.lt_of_lt_of_le h (Nat.pow_le_pow_right (by decide) (by omega))
    simp [Nat.testBit_lt_two_pow this]
    omega

end Sys2Proof.Machine
end

