-- ==== Sys2Proof/Laws/State.lean ====
section
/-! SUPPORT. What writing `STATUS` and raising an error leave in each field of the state, so that no proof unfolds the
two operations. -/

namespace Sys2Proof.Machine

section
variable (s : State) (c : Status) (e : ErrorKind)

@[simp] theorem withStatus_status : (s.withStatus c).status = c := rfl
@[simp] theorem withStatus_ctrl : (s.withStatus c).ctrl = s.ctrl := rfl
@[simp] theorem withStatus_flen : (s.withStatus c).flen = s.flen := rfl
@[simp] theorem withStatus_adlcnt : (s.withStatus c).adlcnt = s.adlcnt := rfl
@[simp] theorem withStatus_msgcnt : (s.withStatus c).msgcnt = s.msgcnt := rfl
@[simp] theorem withStatus_val : (s.withStatus c).val = s.val := rfl
@[simp] theorem withStatus_res : (s.withStatus c).res = s.res := rfl
@[simp] theorem withStatus_spn : (s.withStatus c).spn = s.spn := rfl
@[simp] theorem withStatus_fmi : (s.withStatus c).fmi = s.fmi := rfl
@[simp] theorem withStatus_idx : (s.withStatus c).idx = s.idx := rfl
@[simp] theorem withStatus_name : (s.withStatus c).name = s.name := rfl
@[simp] theorem withStatus_lamps : (s.withStatus c).lamps = s.lamps := rfl
@[simp] theorem withStatus_loc : (s.withStatus c).loc = s.loc := rfl
@[simp] theorem withStatus_pvi : (s.withStatus c).pvi = s.pvi := rfl
@[simp] theorem withStatus_pvf : (s.withStatus c).pvf = s.pvf := rfl
@[simp] theorem withStatus_pvk : (s.withStatus c).pvk = s.pvk := rfl
@[simp] theorem withStatus_enfcnt : (s.withStatus c).enfcnt = s.enfcnt := rfl
@[simp] theorem withStatus_dskip : (s.withStatus c).dskip = s.dskip := rfl
@[simp] theorem withStatus_fb : (s.withStatus c).fb = s.fb := rfl
@[simp] theorem withStatus_msg : (s.withStatus c).msg = s.msg := rfl
@[simp] theorem withStatus_adl : (s.withStatus c).adl = s.adl := rfl
@[simp] theorem withStatus_toConfiguration : (s.withStatus c).toConfiguration = s.toConfiguration := rfl
@[simp] theorem withStatus_toHostSide : (s.withStatus c).toHostSide = s.toHostSide := rfl
@[simp] theorem withStatus_cat : (s.withStatus c).cat = s.cat := rfl
@[simp] theorem withStatus_desc : (s.withStatus c).desc = s.desc := rfl
@[simp] theorem withStatus_pending : (s.withStatus c).pending = s.pending := rfl
@[simp] theorem withStatus_received : (s.withStatus c).received = s.received := rfl
@[simp] theorem withStatus_resets : (s.withStatus c).resets = s.resets := rfl

/-- The last status written is the one that stays. -/
@[simp] theorem withStatus_withStatus (c' : Status) :
    (s.withStatus c).withStatus c' = s.withStatus c' := rfl

/-- Raising an error is writing its status. -/
theorem raise_eq : raise e s = s.withStatus (.fatal e) := rfl

@[simp] theorem raise_status : (raise e s).status = .fatal e := rfl

/-- No register but `STATUS` sees a status that is written (R24). -/
theorem readReg_withStatus (r : Reg) (h : r ≠ .status) :
    readReg r (s.withStatus c) = readReg r s := by
  cases r <;> first | rfl | exact absurd rfl h

end

end Sys2Proof.Machine
end

