-- ==== Sys2Proof/Laws/Ops.lean ====
section
/-! SUPPORT. What the end of a command can be: the one lemma that every proof about a command cites instead of
unfolding `complete`. -/

namespace Sys2Proof.Machine

/-- A command ends with its result written and `OK`, or with an error raised on the state before it (R203). -/
theorem complete_next {α : Type} {s t : State} {r : Except ErrorKind α} {w : α → State} :
    complete s r w = .next t ↔
      (∃ a, r = .ok a ∧ t = (w a).withStatus .ok) ∨ (∃ e, r = .error e ∧ t = raise e s) := by
  cases r <;> simp [complete, eq_comm]

theorem complete_ok {α : Type} (s : State) (a : α) (w : α → State) :
    complete s (.ok a) w = .next ((w a).withStatus .ok) := rfl

theorem complete_error {α : Type} (s : State) (e : ErrorKind) (w : α → State) :
    complete s (.error e) w = .next (raise e s) := rfl

end Sys2Proof.Machine
end

