-- ==== Sys2Proof/Laws/Bfx.lean ====
section
/-! SUPPORT. The two checks of a field, and the bits that the extractor's formulas read and write
(spec/41_bfx.md R110, R113). -/

namespace Sys2Proof.Machine

/-- The checks pass exactly on a field of 1 to 64 bits that ends inside the buffer, and change nothing (R110). -/
theorem checkField_ok {total : Nat} {f f' : BitField} :
    checkField total f = .ok f' ↔
      f' = f ∧ 8 * f.byteIndex + f.bitIndex + f.lengthBits ≤ 8 * total ∧
        1 ≤ f.lengthBits ∧ f.lengthBits ≤ 64 := by
  unfold checkField
  split
  · simp; omega
  · split
    · simp; omega
    · simp [eq_comm]; omega

/-- The range check comes first (R206). -/
theorem checkField_outOfRange {total : Nat} {f : BitField}
    (h : 8 * total < 8 * f.byteIndex + f.bitIndex + f.lengthBits) :
    checkField total f = .error .outOfRange := by
  simp [checkField, h]

theorem checkField_invalidLength {total : Nat} {f : BitField}
    (h : 8 * f.byteIndex + f.bitIndex + f.lengthBits ≤ 8 * total)
    (hl : f.lengthBits = 0 ∨ 64 < f.lengthBits) :
    checkField total f = .error .invalidLength := by
  have h1 : ¬ 8 * f.byteIndex + f.bitIndex + f.lengthBits > 8 * total := by omega
  have h2 : f.lengthBits < 1 ∨ 64 < f.lengthBits := by omega
  simp only [checkField, h1, h2, if_false, if_true]

/-- The extractor's two checks come first, then its formula (R110). -/
theorem extractBits_eq {len : Nat} (buf : Vector Byte len) (total y b l : Nat) :
    extractBits buf total y b l =
      (checkField total ⟨y, b, l⟩).map fun _ => memRead buf y (numBytes b l) >>> b &&& mask l := by
  unfold extractBits
  cases h : checkField total ⟨y, b, l⟩ with
  | error e => rfl
  | ok f =>
    obtain ⟨rfl, -⟩ := checkField_ok.mp h
    rfl

/-- The packer's two checks come first, then its formula (R113). -/
theorem packBits_eq {len : Nat} (buf : Vector Byte len) (total y b l v : Nat) :
    packBits buf total y b l v =
      (checkField total ⟨y, b, l⟩).map fun _ => memOr buf y (numBytes b l) ((v &&& mask l) <<< b) := by
  unfold packBits
  cases h : checkField total ⟨y, b, l⟩ with
  | error e => rfl
  | ok f =>
    obtain ⟨rfl, -⟩ := checkField_ok.mp h
    rfl

/-- The bits of the extractor's result formula are the bits of the field (R110, R62). -/
theorem fieldValue_testBit {len : Nat} (buf : Vector Byte len) (y b l i : Nat) :
    (memRead buf y (numBytes b l) >>> b &&& mask l).testBit i =
      (decide (i < l) && bufBit buf (8 * y + b + i)) := by
  rw [Nat.testBit_and, Nat.testBit_shiftRight, memRead_testBit, mask_testBit]
  have hn : i < l → b + i < 8 * numBytes b l := by
    unfold numBytes
    omega
  by_cases h : i < l
  · simp [h, hn h, Nat.add_assoc]
  · simp [h]

theorem fieldValue_lt {len : Nat} (buf : Vector Byte len) (y b l : Nat) :
    memRead buf y (numBytes b l) >>> b &&& mask l < 2 ^ l := by
  rw [and_mask]
  exact Nat.mod_lt _ (Nat.two_pow_pos l)

/-- The bits of the packer's buffer formula (R113). -/
theorem packed_bufBit {len : Nat} (buf : Vector Byte len) (y b l v g : Nat) (hg : g < 8 * len) :
    bufBit (memOr buf y (numBytes b l) ((v &&& mask l) <<< b)) g =
      (bufBit buf g ||
        (decide (8 * y + b ≤ g ∧ g < 8 * y + b + l) && v.testBit (g - (8 * y + b)))) := by
  rw [memOr_bufBit _ _ _ _ _ hg]
  congr 1
  rw [Nat.testBit_shiftLeft, Nat.testBit_and, mask_testBit]
  have hn : b + l ≤ 8 * numBytes b l := by
    unfold numBytes
    omega
  have he : g - 8 * y - b = g - (8 * y + b) := by omega
  rw [he]
  by_cases h : 8 * y + b ≤ g ∧ g < 8 * y + b + l
  · have h1 : 8 * y ≤ g ∧ g < 8 * (y + numBytes b l) := by omega
    have h2 : g - 8 * y ≥ b := by omega
    have h3 : g - (8 * y + b) < l := by omega
    simp [h, h1, h2, h3]
  · by_cases h1 : 8 * y ≤ g ∧ g < 8 * (y + numBytes b l)
    · by_cases h2 : b ≤ g - 8 * y
      · have h3 : ¬ g - (8 * y + b) < l := by omega
        simp [h, h3]
      · simp [h, h2]
    · simp [h, h1]

end Sys2Proof.Machine
end

