-- ==== Sys2Proof/Laws/Catalog.lean ====
section
/-! SUPPORT. The two catalog functions by the entries they find (spec/42_catalog.md R130, R131). -/

namespace Sys2Proof.Machine

/-- An entry matches a pair exactly when it is that pair (R130: all bits of both fields). -/
theorem entry_matches (e : CatEntry) (spn : BitVec 32) (fmi : BitVec 8) :
    (e.spn == spn && e.fmi == fmi) = true ↔ e = ⟨spn, fmi⟩ := by
  cases e
  simp

/-- What a lookup finds: the first index that holds the pair. -/
theorem lookupIndex_some {cat : List CatEntry} {spn : BitVec 32} {fmi : BitVec 8} {i : Nat} :
    lookupIndex cat spn fmi = some i ↔
      cat[i]? = some ⟨spn, fmi⟩ ∧ ∀ j : Nat, j < i → cat[j]? ≠ some ⟨spn, fmi⟩ := by
  rw [lookupIndex, List.findIdx?_eq_some_iff_getElem]
  constructor
  · rintro ⟨h, hi, hj⟩
    refine ⟨by rw [List.getElem?_eq_getElem h, (entry_matches _ _ _).mp hi], fun j hlt hc => ?_⟩
    obtain ⟨h', hc⟩ := List.getElem?_eq_some_iff.mp hc
    exact hj j hlt ((entry_matches _ _ _).mpr hc)
  · rintro ⟨hi, hj⟩
    obtain ⟨h, hi⟩ := List.getElem?_eq_some_iff.mp hi
    refine ⟨h, (entry_matches _ _ _).mpr hi, fun j hlt hc => ?_⟩
    exact hj j hlt (List.getElem?_eq_some_iff.mpr ⟨by omega, (entry_matches _ _ _).mp hc⟩)

/-- What a lookup misses: a pair that no index holds. -/
theorem lookupIndex_none {cat : List CatEntry} {spn : BitVec 32} {fmi : BitVec 8} :
    lookupIndex cat spn fmi = none ↔ ∀ i : Nat, cat[i]? ≠ some ⟨spn, fmi⟩ := by
  rw [lookupIndex, List.findIdx?_eq_none_iff]
  constructor
  · intro h i hc
    have hm := h _ (List.mem_of_getElem? hc)
    rw [(entry_matches _ _ _).mpr rfl] at hm
    cases hm
  · intro h e he
    obtain ⟨i, hi⟩ := List.mem_iff_getElem?.mp he
    rw [Bool.eq_false_iff]
    exact fun hc => h i (by rw [hi, (entry_matches _ _ _).mp hc])

/-- A found index is an index of the catalog. -/
theorem lookupIndex_lt {cat : List CatEntry} {spn : BitVec 32} {fmi : BitVec 8} {i : Nat}
    (h : lookupIndex cat spn fmi = some i) : i < cat.length :=
  (List.getElem?_eq_some_iff.mp (lookupIndex_some.mp h).1).1

/-- An entry is fetched exactly where the catalog has one. -/
theorem lookupEntry_ok {cat : List CatEntry} {i : Nat} {e : CatEntry} :
    lookupEntry cat i = .ok e ↔ cat[i]? = some e := by
  unfold lookupEntry
  split <;> simp [*]

/-- The only way a fetch fails. -/
theorem lookupEntry_error {cat : List CatEntry} {i : Nat} {e : ErrorKind} :
    lookupEntry cat i = .error e ↔ cat.length ≤ i ∧ e = .catalogIndexOutOfRange := by
  unfold lookupEntry
  split
  · rename_i a h
    simp [(List.getElem?_eq_some_iff.mp h).1]
  · rename_i h
    simp [List.getElem?_eq_none_iff.mp h, eq_comm]

end Sys2Proof.Machine
end

