-- ==== Sys2Proof/Laws/Codec.lean ====
section
/-! SUPPORT. The wire layout as arithmetic (spec/43_dtc_codec.md R142, R143, R151): the message value as a sum of fields
that do not overlap, the fields read back, and the fate of a slot. -/

namespace Sys2Proof.Machine

/-- A slot value fits ten bits (R141). -/
theorem slotIndex_lt {cat : List CatEntry} (hc : cat.length ≤ 1024) (dtcs : List DtcEntry) (i : Nat) :
    slotIndex cat dtcs i < 2 ^ 10 := by
  unfold slotIndex
  split
  · decide
  · rename_i e _
    cases h : lookupIndex cat e.spn e.fmi with
    | none => decide
    | some j =>
      have := lookupIndex_lt h
      simp
      omega

/-- A field above a shorter number is added to it. -/
theorem shiftLeft_or {x y n : Nat} (h : y < 2 ^ n) : x <<< n ||| y = x * 2 ^ n + y := by
  rw [← Nat.shiftLeft_add_eq_or_of_lt h, Nat.shiftLeft_eq]

section
variable {cat : List CatEntry} (hc : cat.length ≤ 1024) (lamps : BitVec 4) (dtcs : List DtcEntry) (mc k : Nat)
include hc

/-- "The fields do not overlap, so `|` can be read as `+`" (R142). -/
theorem messageValue_eq :
    messageValue cat lamps dtcs mc k =
      (k % 4) * 2 ^ 56 + (mc % 4) * 2 ^ 54 + lamps.toNat * 2 ^ 50 +
        slotIndex cat dtcs (5 * k) * 2 ^ 40 + slotIndex cat dtcs (5 * k + 1) * 2 ^ 30 +
        slotIndex cat dtcs (5 * k + 2) * 2 ^ 20 + slotIndex cat dtcs (5 * k + 3) * 2 ^ 10 +
        slotIndex cat dtcs (5 * k + 4) := by
  have h0 := slotIndex_lt hc dtcs (5 * k)
  have h1 := slotIndex_lt hc dtcs (5 * k + 1)
  have h2 := slotIndex_lt hc dtcs (5 * k + 2)
  have h3 := slotIndex_lt hc dtcs (5 * k + 3)
  have h4 := slotIndex_lt hc dtcs (5 * k + 4)
  have hl := lamps.isLt
  simp only [messageValue, Nat.or_assoc]
  rw [shiftLeft_or (n := 10) (by omega), shiftLeft_or (n := 20) (by omega),
    shiftLeft_or (n := 30) (by omega), shiftLeft_or (n := 40) (by omega),
    shiftLeft_or (n := 50) (by omega), shiftLeft_or (n := 54) (by omega),
    shiftLeft_or (n := 56) (by omega)]
  omega

/-- Bits 63:58 are 0 (R142). -/
theorem messageValue_lt : messageValue cat lamps dtcs mc k < 2 ^ 58 := by
  have h0 := slotIndex_lt hc dtcs (5 * k)
  have h1 := slotIndex_lt hc dtcs (5 * k + 1)
  have h2 := slotIndex_lt hc dtcs (5 * k + 2)
  have h3 := slotIndex_lt hc dtcs (5 * k + 3)
  have h4 := slotIndex_lt hc dtcs (5 * k + 4)
  have hl := lamps.isLt
  rw [messageValue_eq hc]
  omega

/-- The header fields of a message value (R92, R145). -/
theorem messageValue_header :
    bits (messageValue cat lamps dtcs mc k) 63 58 = 0 ∧
      bits (messageValue cat lamps dtcs mc k) 57 56 = k % 4 ∧
      bits (messageValue cat lamps dtcs mc k) 55 54 = mc % 4 ∧
      bits (messageValue cat lamps dtcs mc k) 53 50 = lamps.toNat := by
  have h0 := slotIndex_lt hc dtcs (5 * k)
  have h1 := slotIndex_lt hc dtcs (5 * k + 1)
  have h2 := slotIndex_lt hc dtcs (5 * k + 2)
  have h3 := slotIndex_lt hc dtcs (5 * k + 3)
  have h4 := slotIndex_lt hc dtcs (5 * k + 4)
  have hl := lamps.isLt
  rw [messageValue_eq hc]
  simp only [bits, Nat.reduceSub, Nat.reduceAdd, Nat.reducePow]
  refine ⟨?_, ?_, ?_, ?_⟩ <;> omega

/-- The slots of a message value, slot 1 first (R92, R144). -/
theorem messageValue_slots :
    bits (messageValue cat lamps dtcs mc k) 49 40 = slotIndex cat dtcs (5 * k) ∧
      bits (messageValue cat lamps dtcs mc k) 39 30 = slotIndex cat dtcs (5 * k + 1) ∧
      bits (messageValue cat lamps dtcs mc k) 29 20 = slotIndex cat dtcs (5 * k + 2) ∧
      bits (messageValue cat lamps dtcs mc k) 19 10 = slotIndex cat dtcs (5 * k + 3) ∧
      bits (messageValue cat lamps dtcs mc k) 9 0 = slotIndex cat dtcs (5 * k + 4) := by
  have h0 := slotIndex_lt hc dtcs (5 * k)
  have h1 := slotIndex_lt hc dtcs (5 * k + 1)
  have h2 := slotIndex_lt hc dtcs (5 * k + 2)
  have h3 := slotIndex_lt hc dtcs (5 * k + 3)
  have h4 := slotIndex_lt hc dtcs (5 * k + 4)
  have hl := lamps.isLt
  rw [messageValue_eq hc]
  simp only [bits, Nat.reduceSub, Nat.reduceAdd, Nat.reducePow]
  refine ⟨?_, ?_, ?_, ?_, ?_⟩ <;> omega

/-- A stored message reads back as its value (R63). -/
theorem memRead_message :
    memRead (messageBytes (messageValue cat lamps dtcs mc k)) 0 8 = messageValue cat lamps dtcs mc k :=
  memRead_messageBytes _ (Nat.lt_of_lt_of_le (messageValue_lt hc lamps dtcs mc k) (by decide))

end

/-- The message count for a list within capacity: one to five messages, with room for every entry (R143). -/
theorem messageCount_bounds (ceilcnt : Bool) {n : Nat} (h : n ≤ 20) :
    1 ≤ messageCount ceilcnt n ∧ messageCount ceilcnt n ≤ 5 ∧ n ≤ 5 * messageCount ceilcnt n := by
  unfold messageCount
  cases ceilcnt <;> simp <;> omega

theorem encodeDtcs_length (ceilcnt : Bool) (lamps : BitVec 4) (dtcs : List DtcEntry) (cat : List CatEntry) :
    (encodeDtcs ceilcnt lamps dtcs cat).length = messageCount ceilcnt dtcs.length := by
  simp [encodeDtcs]

/-- No more misses than entries (R146). -/
theorem missCount_le (cat : List CatEntry) (dtcs : List DtcEntry) : missCount cat dtcs ≤ dtcs.length :=
  List.countP_le_length

/-- The five slots of a message are its ten-bit fields, slot 1 first (R93). -/
theorem slotsOf_eq (m : Vector Byte 8) :
    slotsOf m = [1, 2, 3, 4, 5].map fun j => bits (memRead m 0 8) (59 - 10 * j) (50 - 10 * j) := by
  have h : ∀ w hi lo : Nat, bits w hi lo = w >>> lo &&& mask (hi - lo + 1) := by
    intro w hi lo
    rw [and_mask, Nat.shiftRight_eq_div_pow, bits]
  simp only [slotsOf, List.map, slotOf, h]
  rfl

/-- What a ten-bit slot appends (R151): the legacy sentinel is never met. -/
theorem slotFate_entry (cat : List CatEntry) {v : Nat} (h : v < 1024) :
    (slotFate cat v).entry? = if v = 0x3FF then none else cat[v]? := by
  unfold slotFate
  by_cases h1 : v = 0x3FF
  · simp [h1, SlotFate.entry?]
  · have h2 : v ≠ 0xFFFF := by omega
    simp only [Config.sent10, Config.sent16, h1, h2, if_false, lookupEntry]
    cases cat[v]? <;> rfl

/-- When a ten-bit slot is skipped and counted (R151). -/
theorem slotFate_beyond (cat : List CatEntry) {v : Nat} (h : v < 1024) :
    slotFate cat v = .beyondCatalog ↔ v ≠ 0x3FF ∧ cat.length ≤ v := by
  unfold slotFate
  by_cases h1 : v = 0x3FF
  · simp [h1]
  · have h2 : v ≠ 0xFFFF := by omega
    simp only [Config.sent10, Config.sent16, h1, h2, if_false, lookupEntry]
    by_cases hl : cat.length ≤ v
    · simp [hl, h1]
    · simp [List.getElem?_eq_getElem (Nat.lt_of_not_le hl), hl]

/-- Everything a decode can answer (R150, R152). -/
theorem decodeDtcs_cases (messages : List (Vector Byte 8)) (cat : List CatEntry) :
    (messages = [] ∧ decodeDtcs messages cat = .error .badOperand) ∨
    (∃ first rest, messages = first :: rest ∧
      20 < ((slotFates cat messages).filterMap SlotFate.entry?).length ∧
      decodeDtcs messages cat = .error .listOverflow) ∨
    (∃ first rest, messages = first :: rest ∧
      ((slotFates cat messages).filterMap SlotFate.entry?).length ≤ 20 ∧
      decodeDtcs messages cat = .ok ⟨lampsOf first, (slotFates cat messages).filterMap SlotFate.entry?,
        (slotFates cat messages).countP (· == .beyondCatalog)⟩) := by
  cases messages with
  | nil => exact .inl ⟨rfl, rfl⟩
  | cons first rest =>
    by_cases h : 20 < ((slotFates cat (first :: rest)).filterMap SlotFate.entry?).length
    · exact .inr (.inl ⟨first, rest, rfl, h, by rw [decodeDtcs, if_pos h]⟩)
    · exact .inr (.inr ⟨first, rest, rfl, Nat.le_of_not_lt h, by rw [decodeDtcs, if_neg h]⟩)

end Sys2Proof.Machine
end

