-- ==== Sys2Proof/Laws/Decode.lean ====
section
/-! SUPPORT. The command word in arithmetic: the reserved masks as fields that must be zero, the operand layout as a
sum, and what it takes for a word to decode (spec/30_encoding.md R80, R81, R100). -/

namespace Sys2Proof

open Sys2Proof.Machine (bits)

/-- Masking with a run of ones keeps one field of the number. -/
theorem and_run (v n m : Nat) : v &&& (2 ^ n - 1) <<< m = (v / 2 ^ m % 2 ^ n) <<< m := by
  apply Nat.eq_of_testBit_eq
  intro i
  rw [Nat.testBit_and, Nat.testBit_shiftLeft, Nat.testBit_shiftLeft, Nat.testBit_two_pow_sub_one,
    Nat.testBit_mod_two_pow, ← Nat.shiftRight_eq_div_pow, Nat.testBit_shiftRight]
  by_cases h : i ≥ m
  · have : m + (i - m) = i := by omega
    simp [h, this, Bool.and_comm]
  · simp [h]

theorem and_run_eq_zero (v n m : Nat) : v &&& (2 ^ n - 1) <<< m = 0 ↔ v / 2 ^ m % 2 ^ n = 0 := by
  rw [and_run, Nat.shiftLeft_eq]
  have := Nat.two_pow_pos m
  constructor
  · intro h
    rcases Nat.mul_eq_zero.mp h with h | h <;> omega
  · intro h
    simp [h]

/-- The bits that format N reserves are zero. -/
theorem reserved_n (v : Nat) : v &&& reservedMask .n = 0 ↔ v % 2 ^ 24 = 0 := by
  have := and_run_eq_zero v 24 0
  simpa [reservedMask] using this

/-- The bits that format B reserves are zero. -/
theorem reserved_b (v : Nat) :
    v &&& reservedMask .b = 0 ↔ v / 2 ^ 11 % 2 ^ 5 = 0 ∧ v / 2 ^ 7 % 2 ^ 1 = 0 := by
  have hm : reservedMask .b = (2 ^ 5 - 1) <<< 11 ||| (2 ^ 1 - 1) <<< 7 := by decide
  rw [hm, Nat.and_or_distrib_left, Nat.or_eq_zero_iff, and_run_eq_zero, and_run_eq_zero]

/-- The bits that format L reserves are zero. -/
theorem reserved_l (v : Nat) : v &&& reservedMask .l = 0 ↔ v / 2 ^ 7 % 2 ^ 17 = 0 :=
  and_run_eq_zero v 17 7

/-- The bits that format K reserves are zero. -/
theorem reserved_k (v : Nat) : v &&& reservedMask .k = 0 ↔ v / 2 ^ 3 % 2 ^ 21 = 0 :=
  and_run_eq_zero v 21 3

/-- The bits that format D reserves are zero. -/
theorem reserved_d (v : Nat) : v &&& reservedMask .d = 0 ↔ v / 2 ^ 8 % 2 ^ 16 = 0 :=
  and_run_eq_zero v 16 8

/-- The operand layout of format B and of `LOC` as a sum: the fields do not overlap (R84). -/
theorem fieldOperand_eq {y b l : Nat} (hb : b < 2 ^ 8) (hl : l < 2 ^ 8) :
    fieldOperand y b l = y * 2 ^ 16 + b * 2 ^ 8 + l := by
  have h1 : b <<< 8 ||| l = b <<< 8 + l := (Nat.shiftLeft_add_eq_or_of_lt hl b).symm
  have h2 : b <<< 8 + l < 2 ^ 16 := by
    rw [Nat.shiftLeft_eq]
    omega
  rw [fieldOperand, Nat.or_assoc, h1, ← Nat.shiftLeft_add_eq_or_of_lt h2, Nat.shiftLeft_eq,
    Nat.shiftLeft_eq]
  omega

/-- No two rows of the opcode map share an opcode (R82). -/
theorem opRows_opcodes_differ : (opRows.map OpRow.opcode).Pairwise (· ≠ ·) := by decide

/-- A row is found under its own opcode (R82). -/
theorem opRows_find {row : OpRow} (h : row ∈ opRows) :
    opRows.find? (fun r => r.opcode == row.opcode) = some row := by
  simp only [opRows, List.mem_cons, List.not_mem_nil, or_false] at h
  rcases h with rfl | rfl | rfl | rfl | rfl | rfl | rfl | rfl | rfl | rfl | rfl | rfl | rfl | rfl <;> rfl

theorem opcodeField_eq (w : Word) : bits w.toNat 31 24 = w.toNat / 2 ^ 24 := by
  have := w.isLt
  simp only [bits]
  omega

/-- What it takes for a word to be a command: a row with its opcode, and no reserved bit (R80). -/
theorem decode_ok {w : Word} {i : Instr} :
    decode w = .ok i ↔
      ∃ row ∈ opRows, row.opcode = w.toNat / 2 ^ 24 ∧ w.toNat &&& reservedMask row.format = 0 ∧
        i = row.build w.toNat := by
  unfold decode
  rw [opcodeField_eq]
  constructor
  · intro h
    split at h
    · cases h
    · rename_i row hrow
      split at h
      · rename_i hz
        injection h with h
        exact ⟨row, List.mem_of_find?_eq_some hrow, by simpa using List.find?_some hrow, hz, h.symm⟩
      · cases h
  · rintro ⟨row, hmem, hop, hz, rfl⟩
    rw [← hop, opRows_find hmem]
    simp [hz]

end Sys2Proof
end

