-- ==== Sys2Proof/Laws/PerInstr.lean ====
section
/-! SUPPORT. Facts about every command as syntax, one lemma per constructor. -/

namespace Sys2Proof.Laws.EncodeShape

/-- The word of a well-formed command has its opcode in bits 31:24 and its operand bits below (R80, R100). -/
def Statement (i : Instr) : Prop :=
  i.WellFormed → (encode i).toNat / 2 ^ 24 = i.opcode ∧ (encode i).toNat % 2 ^ 24 = i.operand

/-- An opcode of eight bits over an operand of 24 bits. -/
theorem of_bounds {i : Instr} (hop : i.opcode < 2 ^ 8) (harg : i.operand < 2 ^ 24) :
    (encode i).toNat / 2 ^ 24 = i.opcode ∧ (encode i).toNat % 2 ^ 24 = i.operand := by
  have h : i.opcode <<< 24 ||| i.operand = i.opcode * 2 ^ 24 + i.operand := by
    rw [← Nat.shiftLeft_add_eq_or_of_lt harg, Nat.shiftLeft_eq]
  rw [encode, h, BitVec.toNat_ofNat]
  omega

/-- A format B operand fits its 24 bits. -/
theorem fieldOperand_lt {y b l : Nat}
    (h : (decide (y ≤ 255) && decide (b ≤ 7) && decide (l ≤ 127)) = true) :
    fieldOperand y b l < 2 ^ 24 := by
  simp only [Bool.and_eq_true, decide_eq_true_eq] at h
  rw [fieldOperand_eq (by omega) (by omega)]
  omega

theorem nop : Statement .nop := fun _ => of_bounds (by decide) (by decide)
theorem clrfb : Statement .clrfb := fun _ => of_bounds (by decide) (by decide)
theorem movmf (k : Nat) : Statement (.movmf k) := fun h =>
  of_bounds (by simp [Instr.opcode])
    (Nat.lt_of_le_of_lt (of_decide_eq_true h) (by decide))
theorem movfm (k : Nat) : Statement (.movfm k) := fun h =>
  of_bounds (by simp [Instr.opcode])
    (Nat.lt_of_le_of_lt (of_decide_eq_true h) (by decide))
theorem xbits (byteIndex bitIndex lengthBits : Nat) :
    Statement (.xbits byteIndex bitIndex lengthBits) := fun h =>
  of_bounds (by simp [Instr.opcode]) (fieldOperand_lt h)
theorem pbits (byteIndex bitIndex lengthBits : Nat) :
    Statement (.pbits byteIndex bitIndex lengthBits) := fun h =>
  of_bounds (by simp [Instr.opcode]) (fieldOperand_lt h)
theorem sext (lengthBits : Nat) : Statement (.sext lengthBits) := fun h =>
  of_bounds (by simp [Instr.opcode])
    (Nat.lt_of_le_of_lt (of_decide_eq_true h) (by decide))
theorem lkidx : Statement .lkidx := fun _ => of_bounds (by decide) (by decide)
theorem lkent : Statement .lkent := fun _ => of_bounds (by decide) (by decide)
theorem enc : Statement .enc := fun _ => of_bounds (by decide) (by decide)
theorem dec : Statement .dec := fun _ => of_bounds (by decide) (by decide)
theorem xsig (d : Nat) : Statement (.xsig d) := fun h =>
  of_bounds (by simp [Instr.opcode])
    (Nat.lt_of_le_of_lt (of_decide_eq_true h) (by decide))
theorem sigloc (d : Nat) : Statement (.sigloc d) := fun h =>
  of_bounds (by simp [Instr.opcode])
    (Nat.lt_of_le_of_lt (of_decide_eq_true h) (by decide))
theorem phys (d : Nat) : Statement (.phys d) := fun h =>
  of_bounds (by simp [Instr.opcode])
    (Nat.lt_of_le_of_lt (of_decide_eq_true h) (by decide))

end Sys2Proof.Laws.EncodeShape
end

