-- ==== Sys2Proof/Laws/Registers.lean ====
section
/-! SUPPORT. The register map and the host's view of it (spec/10_state.md R22): a register is found at its own number,
and what writing one register does to every read. -/

namespace Sys2Proof.Machine

/-- A bounded index with a known value. -/
theorem fin_mk_eq {n m : Nat} {i : Fin n} (h : m < n) (e : m = i.val) : (⟨m, h⟩ : Fin n) = i := Fin.ext e

section
variable (i : Fin Config.bufCap) (k : Fin 5) (b : Fin 8) (j : Fin 20)

theorem regAt_fb : regAt (0x40 + i.val) = some (.fb i) := by
  have hb : Config.bufCap = 8 := rfl
  rw [regAt, dif_pos (by omega), fin_mk_eq (i := i) _ (by omega)]

theorem regAt_msg : regAt (0x80 + 8 * k.val + b.val) = some (.msg k b) := by
  have hb : Config.bufCap = 8 := rfl
  rw [regAt, dif_neg (by omega), dif_pos (by omega), fin_mk_eq (i := k) _ (by omega),
    fin_mk_eq (i := b) _ (by omega)]

theorem regAt_adlSpn : regAt (0x100 + 4 * j.val) = some (.adlSpn j) := by
  have hb : Config.bufCap = 8 := rfl
  rw [regAt, dif_neg (by omega), dif_neg (by omega), dif_pos (by omega), if_pos (by omega),
    fin_mk_eq (i := j) _ (by omega)]

theorem regAt_adlFmi : regAt (0x101 + 4 * j.val) = some (.adlFmi j) := by
  have hb : Config.bufCap = 8 := rfl
  rw [regAt, dif_neg (by omega), dif_neg (by omega), dif_pos (by omega), if_neg (by omega),
    if_pos (by omega), fin_mk_eq (i := j) _ (by omega)]

theorem regAt_adlOcc : regAt (0x102 + 4 * j.val) = some (.adlOcc j) := by
  have hb : Config.bufCap = 8 := rfl
  rw [regAt, dif_neg (by omega), dif_neg (by omega), dif_pos (by omega), if_neg (by omega),
    if_neg (by omega), if_pos (by omega), fin_mk_eq (i := j) _ (by omega)]

end

/-- A register is found at its number. -/
theorem regAt_number (r : Reg) : regAt r.number = some r := by
  cases r with
  | fb i => exact regAt_fb i
  | msg k b => exact regAt_msg k b
  | adlSpn j => exact regAt_adlSpn j
  | adlFmi j => exact regAt_adlFmi j
  | adlOcc j => exact regAt_adlOcc j
  | _ => rfl

/-- Writing one register leaves every other register as it was. -/
theorem setReg_other {r q : Reg} (v : Nat) (s : State) (h : q ≠ r) :
    readReg q (setReg r v s) = readReg q s := by
  cases r <;> cases q <;> first | rfl | exact absurd rfl h | skip
  case fb.fb i j =>
    have hne : i.val ≠ j.val := fun e => h (by rw [Fin.ext e])
    simp [setReg, readReg, Vector.getElem_set_ne _ _ hne]
  case msg.msg k i k' i' =>
    by_cases e : k.val = k'.val
    · cases Fin.ext e
      have hne : i.val ≠ i'.val := fun e => h (by rw [Fin.ext e])
      simp [setReg, readReg, Vector.getElem_set_ne _ _ hne]
    · simp [setReg, readReg, Vector.getElem_set_ne _ _ e]
  all_goals
    rename_i i j
    by_cases e : i.val = j.val
    · cases Fin.ext e
      first | exact absurd rfl h | simp [setReg, readReg]
    · simp [setReg, readReg, Vector.getElem_set_ne _ _ e]

/-- A host-writable register holds the value written, if it fits. -/
theorem setReg_self {r : Reg} {v : Nat} (s : State) (hv : v < 2 ^ r.width) (ha : r.access = .rw) :
    readReg r (setReg r v s) = v := by
  cases r <;> simp [Reg.access] at ha <;> simp [setReg, readReg, Reg.width] at * <;> omega

/-- Writing a register touches neither a configuration memory nor the model's own fields. -/
theorem setReg_side (r : Reg) (v : Nat) (s : State) :
    (setReg r v s).cat = s.cat ∧ (setReg r v s).desc = s.desc ∧ (setReg r v s).pending = s.pending ∧
      (setReg r v s).received = s.received ∧ (setReg r v s).resets = s.resets := by
  cases r <;> exact ⟨rfl, rfl, rfl, rfl, rfl⟩

/-- Everything a host write to a register other than `CMD` can do (R67). -/
theorem writeReg_cases (r : Reg) (v : Nat) (s : State) :
    (r.access = .rw ∧ r.legal v = true ∧ writeReg r v s = setReg r v s) ∨
      (¬ (r.access = .rw ∧ r.legal v = true) ∧ writeReg r v s = s) := by
  by_cases h : r.access = .rw ∧ r.legal v = true
  · exact .inl ⟨h.1, h.2, by rw [writeReg, if_pos h]⟩
  · exact .inr ⟨h, by rw [writeReg, if_neg h]⟩

end Sys2Proof.Machine
end

