-- ==== Sys2Proof/Laws/Step.lean ====
section
/-! SUPPORT. What one step can be: the transaction at the head of the queue, and everything that transaction can do
when it answers a next state (spec/20_memory.md R67 to R69, spec/70_reset_and_hazards.md R220). -/

namespace Sys2Proof.Machine

section
variable {s : State} {rest : List HostEvent}

/-- A step over a transaction performs it on the state without it. -/
theorem step_cons {e : HostEvent} (h : s.pending = e :: rest) :
    step s = perform e { s with pending := rest } := by
  rw [step, runNext, h]

end

/-- Everything issuing a word can do (R80). -/
theorem issueCommand_cases (w : Word) (s : State) :
    (∃ i, decode w = .ok i ∧ issueCommand w s = exec i s) ∨
      ((∃ e, decode w = .error e) ∧ issueCommand w s = .next (raise .illegalCommand s)) := by
  unfold issueCommand
  split
  · rename_i i h
    exact .inl ⟨i, h, rfl⟩
  · rename_i e h
    exact .inr ⟨⟨e, h⟩, rfl⟩

/-- A host write of a word to `CMD` issues the word (R68): its value fits, and no other register has the number 0. -/
theorem perform_cmd (w : Word) (s : State) : perform (.wr 0 w.toNat) s = issueCommand w s := by
  have h : regAt 0 = some .cmd := by decide
  have hw : w.toNat < 2 ^ Reg.cmd.width := w.isLt
  simp only [perform, hostWrite, h, hw, if_true, BitVec.ofNat_toNat, BitVec.setWidth_eq]

/-- Everything a transaction can do when it answers a next state: a reset, a read, a write to a register other than
`CMD`, a command, or a word that is no command. -/
theorem perform_cases {e : HostEvent} {s t : State} (h : perform e s = .next t) :
    (e = .reset ∧ t = hostReset s) ∨
    (∃ n r, e = .rd n ∧ regAt n = some r ∧ t = { s with received := (n, readReg r s) :: s.received }) ∨
    (∃ n v r, e = .wr n v ∧ regAt n = some r ∧ v < 2 ^ r.width ∧ r ≠ .cmd ∧ t = writeReg r v s) ∨
    (∃ n v i, e = .wr n v ∧ decode (BitVec.ofNat 32 v) = .ok i ∧ exec i s = .next t) ∨
    (∃ n v, e = .wr n v ∧ t = raise .illegalCommand s) := by
  cases e with
  | reset =>
    injection h with h
    exact .inl ⟨rfl, h.symm⟩
  | rd n =>
    simp only [perform, hostRead] at h
    split at h
    · cases h
    · rename_i r hr
      injection h with h
      exact .inr (.inl ⟨n, r, rfl, hr, h.symm⟩)
  | wr n v =>
    simp only [perform, hostWrite] at h
    split at h
    · cases h
    · rename_i r hr
      split at h
      · rename_i hv
        split at h
        · rcases issueCommand_cases (BitVec.ofNat 32 v) s with ⟨i, hd, hi⟩ | ⟨-, hi⟩
          · exact .inr (.inr (.inr (.inl ⟨n, v, i, rfl, hd, hi ▸ h⟩)))
          · rw [hi] at h
            injection h with h
            exact .inr (.inr (.inr (.inr ⟨n, v, rfl, h.symm⟩)))
        · rename_i hc
          injection h with h
          exact .inr (.inr (.inl ⟨n, v, r, rfl, hr, hv, hc, h.symm⟩))
      · cases h

section
variable (s : State)

@[simp] theorem hostReset_status : (hostReset s).status = .ok := rfl
@[simp] theorem hostReset_ctrl : (hostReset s).ctrl = 0 := rfl
@[simp] theorem hostReset_flen : (hostReset s).flen = 0 := rfl
@[simp] theorem hostReset_adlcnt : (hostReset s).adlcnt = 0 := rfl
@[simp] theorem hostReset_msgcnt : (hostReset s).msgcnt = 0 := rfl
@[simp] theorem hostReset_pvk : (hostReset s).pvk = 0 := rfl
@[simp] theorem hostReset_enfcnt : (hostReset s).enfcnt = 0 := rfl
@[simp] theorem hostReset_dskip : (hostReset s).dskip = 0 := rfl
@[simp] theorem hostReset_toConfiguration : (hostReset s).toConfiguration = s.toConfiguration := rfl
@[simp] theorem hostReset_cat : (hostReset s).cat = s.cat := rfl
@[simp] theorem hostReset_desc : (hostReset s).desc = s.desc := rfl
@[simp] theorem hostReset_pending : (hostReset s).pending = s.pending := rfl
@[simp] theorem hostReset_received : (hostReset s).received = s.received := rfl

/-- The bits of `LOC` that do not exist are 0 after a reset, whatever the others hold (R36, R90). -/
theorem hostReset_loc_reserved : (hostReset s).loc &&& 0x00F880#24 = 0#24 := by
  simp only [hostReset, BitVec.and_assoc]
  simp

end

end Sys2Proof.Machine
end

