-- ==== Sys2Proof/Laws/Telegram.lean ====
section
/-! SUPPORT. What the operands of the telegram commands can be (spec/44_telegram.md R170, R172) and what storing a
physical value leaves (R180). -/

namespace Sys2Proof.Machine

theorem descriptorOperand_ok {desc : List Descriptor} {d : Nat} {x : Descriptor} :
    descriptorOperand desc d = .ok x ↔ desc[d]? = some x := by
  unfold descriptorOperand
  split <;> simp [*]

theorem descriptorOperand_error {desc : List Descriptor} {d : Nat} {e : ErrorKind} :
    descriptorOperand desc d = .error e ↔ desc.length ≤ d ∧ e = .badOperand := by
  unfold descriptorOperand
  split
  · rename_i a h
    simp [(List.getElem?_eq_some_iff.mp h).1]
  · rename_i h
    simp [List.getElem?_eq_none_iff.mp h, eq_comm]

/-- A signal that is found is one of the descriptor's and has the key's name. -/
theorem findSignal_mem {x : Descriptor} {name : BitVec 64} {g : Signal}
    (h : findSignal x name = .ok g) : g ∈ x.sigs ∧ g.name = name := by
  unfold findSignal at h
  split at h
  · rename_i g' hg
    injection h with h
    subst h
    exact ⟨List.mem_of_find?_eq_some hg, by simpa using List.find?_some hg⟩
  · cases h

/-- A search fails with one kind only. -/
theorem findSignal_error {x : Descriptor} {name : BitVec 64} {e : ErrorKind}
    (h : findSignal x name = .error e) : e = .signalNotFound := by
  unfold findSignal at h
  split at h
  · cases h
  · injection h with h
    exact h.symm

/-- The signal operand is the descriptor's own search, once the descriptor exists. -/
theorem signalOperand_eq {desc : List Descriptor} {d : Nat} {x : Descriptor} (name : BitVec 64)
    (h : desc[d]? = some x) :
    signalOperand desc d name = (findSignal x name).map fun g => (x, g) := by
  rw [signalOperand, descriptorOperand_ok.mpr h]
  cases h' : findSignal x name <;> simp [h', Except.map]

theorem byte_eq_zero {n : Nat} (v : BitVec n) : v = 0 ↔ v.toNat = 0 := by
  constructor
  · rintro rfl
    simp
  · intro h
    exact BitVec.eq_of_toNat_eq (by simpa using h)

/-- The legal 1-based positions, with their 0-based ones (R172). -/
theorem toZeroBased_ok {g : Signal} {f : BitField} :
    toZeroBased g = .ok f ↔
      g.byte1.toNat = f.byteIndex + 1 ∧ g.bit1.toNat = f.bitIndex + 1 ∧ f.bitIndex ≤ 7 ∧
        f.lengthBits = g.lengthBits.toNat := by
  simp only [toZeroBased, byte_eq_zero]
  cases f
  split <;> simp <;> omega

/-- The illegal positions (R172). -/
theorem toZeroBased_error {g : Signal} {e : ErrorKind} :
    toZeroBased g = .error e ↔
      (g.byte1.toNat = 0 ∨ g.bit1.toNat = 0 ∨ 8 < g.bit1.toNat) ∧ e = .badDescriptor := by
  simp only [toZeroBased, byte_eq_zero]
  split
  · rename_i h
    simp only [Except.error.injEq, h, true_and]
    exact eq_comm
  · rename_i h
    simp [h]

/-- What storing a physical value leaves: only the three registers of R37 can differ. -/
theorem storePhysical_eq (s : State) (p : PhysicalValue) :
    storePhysical s p =
      { s with
        pvi := (storePhysical s p).pvi
        pvf := (storePhysical s p).pvf
        pvk := (storePhysical s p).pvk } := by
  cases p <;> rfl

/-- The signed reading of an offset pattern is the bit vector's own (R13). -/
theorem signed_toInt (x : BitVec 32) : signed 32 x.toNat = x.toInt := by
  rw [BitVec.toInt_eq_toNat_cond, signed]
  split <;> split <;> omega

end Sys2Proof.Machine
end

