-- ==== Sys2Proof/Tests/Slice0.lean ====
section
/-! SUPPORT. Tests on one transaction each, with the expected values of spec/95_test_vectors.md (the row is named in
each comment) or worked out by hand from a rule; and for every statement with hypotheses, a named state and operands
that meet them. -/

namespace Sys2Proof.Tests

open Sys2Proof Sys2Proof.Machine

/-! ### Fixtures (spec/95_test_vectors.md section 2) -/

/-- `TCAT` (95 section 2.1). -/
def tcat : List CatEntry :=
  [⟨100, 3⟩, ⟨100, 4⟩, ⟨110, 0⟩, ⟨190, 2⟩, ⟨627, 5⟩, ⟨1569, 31⟩, ⟨520192, 11⟩, ⟨100, 3⟩]

def keyTemp : BitVec 64 := 0x504D4554
def keySpeed : BitVec 64 := 0x4445455053
def keyGear : BitVec 64 := 0x52414547
def keyWide : BitVec 64 := 0x45444957
def keyBad0 : BitVec 64 := 0x30444142
def keyNone : BitVec 64 := 0x454E4F4E
def keyBad9 : BitVec 64 := 0x39444142
def keyLen0 : BitVec 64 := 0x304E454C
def keyLen65 : BitVec 64 := 0x35364E454C

def sigTemp : Signal := ⟨keyTemp, 1, 1, 8, 0, BitVec.ofInt 32 (-40), .integer⟩
def sigSpeed : Signal := ⟨keySpeed, 2, 1, 16, 0x3B800000, 0, .floatScaled⟩
def sigGear : Signal := ⟨keyGear, 4, 5, 4, 0, 0, .integer⟩
def sigWide : Signal := ⟨keyWide, 8, 6, 8, 0, 0, .integer⟩
def sigBad0 : Signal := ⟨keyBad0, 0, 1, 8, 0, 0, .integer⟩
def sigBad9 : Signal := ⟨keyBad9, 1, 9, 8, 0, 0, .integer⟩
def sigLen0 : Signal := ⟨keyLen0, 1, 1, 0, 0, 0, .integer⟩

/-- `TDESC` (95 section 2.2). -/
def tdesc : Descriptor := ⟨0x123, 8, 100, 500, [sigTemp, sigSpeed, sigGear, sigWide, sigBad0]⟩

/-- Part of `TDESC2` (95 section 2.2), and the 16-byte descriptor of the note under 95 section 6.1. -/
def tdesc2 : Descriptor := ⟨0x18FECA00, 4, 1000, 0, [sigBad9, sigLen0]⟩
def tdesc16 : Descriptor := ⟨0, 16, 0, 0, [⟨keyLen65, 1, 1, 65, 0, 0, .integer⟩]⟩

/-- The test frame `T` (95 section 2.3). -/
def frameT : Vector Byte 8 := #v[0x64, 0x5B, 0x07, 0xA5, 0xF0, 0x3C, 0x81, 0xFE]

/-- The first message of vector E1. -/
def messageE1 : Vector Byte 8 := #v[0xFF, 0xFF, 0x6F, 0xC0, 0x00, 0x00, 0x54, 0x00]

/-- A state with the test configuration and the test frame loaded. -/
def base : State :=
  { State.reset with cat := tcat, desc := [tdesc, tdesc2, tdesc16], fb := frameT, flen := 8, res := 0xDEAD }

/-- The state after the host wrote the word `w` to `CMD`; the state itself if the step stops. -/
def issue (w : Nat) (s : State) : State :=
  match step (s.withFetchWord 32 w) with
  | .next t => t
  | .fault _ => s
  | .refused _ => s

theorem base_inv : base.Inv := by constructor <;> decide

/-! ### Well-formedness: one ill-formed term for each check (R101) -/

theorem test_wellFormed_movmf : ¬ (Instr.movmf 8).WellFormed := by decide
theorem test_wellFormed_movfm : ¬ (Instr.movfm 8).WellFormed := by decide
theorem test_wellFormed_xbits : ¬ (Instr.xbits 256 0 8).WellFormed ∧ ¬ (Instr.xbits 0 8 8).WellFormed ∧
    ¬ (Instr.xbits 0 0 128).WellFormed := by decide
theorem test_wellFormed_pbits : ¬ (Instr.pbits 256 0 8).WellFormed ∧ ¬ (Instr.pbits 0 8 8).WellFormed ∧
    ¬ (Instr.pbits 0 0 128).WellFormed := by decide
theorem test_wellFormed_sext : ¬ (Instr.sext 128).WellFormed := by decide
theorem test_wellFormed_descriptor : ¬ (Instr.xsig 256).WellFormed ∧ ¬ (Instr.sigloc 256).WellFormed ∧
    ¬ (Instr.phys 256).WellFormed := by decide
/-- An operand that fits and that the command refuses is well formed: `xbits 0, 0, 0` assembles (R101). -/
theorem test_wellFormed_refused_later : (Instr.xbits 0 0 0).WellFormed ∧ (Instr.movmf 7).WellFormed := by decide

/-! ### Decoding: a word of each command written out from R81, R82 -/

theorem test_decode_nop : decodeTableWord 32 0b00000000_00000000_00000000_00000000 = some .nop := by decide
theorem test_decode_clrfb : decodeTableWord 32 0b00000001_00000000_00000000_00000000 = some .clrfb := by decide
theorem test_decode_movmf : decodeTableWord 32 0b00000010_00000000_00000000_00000011 = some (.movmf 3) := by decide
theorem test_decode_movfm : decodeTableWord 32 0b00000011_00000000_00000000_00000110 = some (.movfm 6) := by decide
/-- B12: `0x1003060A`. -/
theorem test_decode_xbits : decodeTableWord 32 0b00010000_00000011_00000110_00001010 = some (.xbits 3 6 10) := by decide
/-- K16: `0x11080001`. -/
theorem test_decode_pbits : decodeTableWord 32 0b00010001_00001000_00000000_00000001 = some (.pbits 8 0 1) := by decide
/-- X19: `0x12000041`. -/
theorem test_decode_sext : decodeTableWord 32 0b00010010_00000000_00000000_01000001 = some (.sext 65) := by decide
theorem test_decode_lkidx : decodeTableWord 32 0b00100000_00000000_00000000_00000000 = some .lkidx := by decide
theorem test_decode_lkent : decodeTableWord 32 0b00100001_00000000_00000000_00000000 = some .lkent := by decide
theorem test_decode_enc : decodeTableWord 32 0b00110000_00000000_00000000_00000000 = some .enc := by decide
theorem test_decode_dec : decodeTableWord 32 0b00110001_00000000_00000000_00000000 = some .dec := by decide
/-- T18: `0x400000FF`. -/
theorem test_decode_xsig : decodeTableWord 32 0b01000000_00000000_00000000_11111111 = some (.xsig 255) := by decide
theorem test_decode_sigloc : decodeTableWord 32 0b01000001_00000000_00000000_10000001 = some (.sigloc 129) := by decide
theorem test_decode_phys : decodeTableWord 32 0b01000010_00000000_00000000_00000010 = some (.phys 2) := by decide
/-- `0x40000100` "is not `xsig 256`; it is illegal" (95 section 6.1); an opcode between two rows is illegal (R89). -/
theorem test_decode_illegal : decodeTableWord 32 0x40000100 = none ∧ decodeTableWord 32 0x13000000 = none ∧
    decodeTableWord 32 0x10000800 = none ∧ decodeTableWord 32 0x00000001 = none := by decide
theorem test_encode : encode (.xbits 255 7 127) = 0x10FF077F ∧ encode (.sext 16) = 0x12000010 ∧
    encode (.phys 2) = 0x42000002 := by decide

/-! ### The commands -/

/-- R190: `STATUS = 1`; `nop` gives 0. -/
theorem test_nop : issue 0x00000000 { base with status := .fatal .outOfRange } = { base with status := .ok } := by decide
/-- The example of R191. -/
theorem test_clrfb : (issue 0x01000000 base).fb = #v[0, 0, 0, 0, 0, 0, 0, 0] ∧ (issue 0x01000000 base).flen = 8 := by decide
/-- The example of R192, on message 4. -/
theorem test_movmf : (issue 0x02000004 { base with msg := base.msg.set 4 messageE1, flen := 3 }).fb = messageE1 ∧
    (issue 0x02000004 { base with msg := base.msg.set 4 messageE1, flen := 3 }).flen = 8 := by decide
theorem test_movmf_bad : (issue 0x02000005 base).status = .fatal .badOperand ∧ (issue 0x02000005 base).fb = frameT := by decide
/-- The shape of the example of R193: message 2 takes the frame. -/
theorem test_movfm : (issue 0x03000002 base).msg[2] = frameT ∧ (issue 0x03000002 base).msg[1] = base.msg[1] := by decide
theorem test_movfm_length : (issue 0x03000002 { base with flen := 7 }).status = .fatal .badOperand := by decide
/-- B8: `xbits 0, 1, 63`. -/
theorem test_xbits : (issue 0x1000013F base).res = 0x7F409E785283ADB2 ∧ (issue 0x1000013F base).status = .ok := by decide
/-- B21, B22: the range check comes first. -/
theorem test_xbits_errors : (issue 0x10080000 base).status = .fatal .invalidLength ∧
    (issue 0x10000041 base).status = .fatal .outOfRange ∧ (issue 0x10000041 base).res = 0xDEAD := by decide
/-- K12: the field is ORed, its neighbour in the byte is kept. -/
theorem test_pbits : (issue 0x11030404 { base with val := 5 }).fb = #v[0x64, 0x5B, 0x07, 0xF5, 0xF0, 0x3C, 0x81, 0xFE] := by decide
/-- K8: a value above the mask is cut. -/
theorem test_pbits_mask : (issue 0x11000204 { base with fb := Vector.replicate 8 0, val := 0x1FF }).fb[0] = 0x3C ∧
    (issue 0x11000204 { base with fb := Vector.replicate 8 0, val := 0x1FF }).fb[1] = 0 := by decide
/-- X2, X13: bits above the field are replaced. -/
theorem test_sext : (issue 0x12000010 { base with res := 0xFB64 }).res = 0xFFFFFFFFFFFFFB64 ∧
    (issue 0x12000008 { base with res := 0xFF00 }).res = 0 := by decide
/-- X7, X19. -/
theorem test_sext_edge : (issue 0x12000040 { base with res := 0x8000000000000000 }).res = 0x8000000000000000 ∧
    (issue 0x12000041 base).status = .fatal .invalidLength := by decide
/-- L1: the first of two equal entries. -/
theorem test_lkidx : (issue 0x20000000 { base with spn := 100, fmi := 3, idx := 0x1234 }).idx = 0 := by decide
/-- L10: the fields are not interchangeable; the warning writes `IDX`. -/
theorem test_lkidx_miss : (issue 0x20000000 { base with spn := 3, fmi := 100 }).idx = 0xFFFF ∧
    (issue 0x20000000 { base with spn := 3, fmi := 100 }).status = .notFound := by decide
/-- M2. -/
theorem test_lkent : (issue 0x21000000 { base with idx := 6 }).spn = 520192 ∧ (issue 0x21000000 { base with idx := 6 }).fmi = 11 := by decide
/-- M4: the first index beyond the catalog. -/
theorem test_lkent_beyond : (issue 0x21000000 { base with idx := 8, spn := 7 }).status = .fatal .catalogIndexOutOfRange ∧
    (issue 0x21000000 { base with idx := 8, spn := 7 }).spn = 7 := by decide

/-- The list of vector E1, then entries that are not read. -/
def listE1 : Vector DtcEntry 20 :=
  ((base.adl.set 0 ⟨100, 3, 7⟩).set 1 ⟨190, 2, 7⟩).set 2 ⟨520192, 11, 7⟩

def beforeE1 : State := { base with lamps := 0b0101, adlcnt := 3, adl := listE1 }

/-- E1. -/
theorem test_enc : (issue 0x30000000 beforeE1).msg[0] = messageE1 ∧ (issue 0x30000000 beforeE1).msgcnt = 1 ∧
    (issue 0x30000000 beforeE1).enfcnt = 0 := by decide
/-- E8 and the count of E3: no entry found, two misses; with five entries the two formulas differ. -/
theorem test_enc_counts :
    (issue 0x30000000 { base with adlcnt := 2, adl := (base.adl.set 0 ⟨1, 1, 7⟩).set 1 ⟨2, 2, 7⟩ }).enfcnt = 2 ∧
    (issue 0x30000000 { beforeE1 with adlcnt := 5 }).msgcnt = 2 ∧
    (issue 0x30000000 { beforeE1 with adlcnt := 5, ctrl := 1 }).msgcnt = 1 := by decide

/-- The bank of vector F12: two slots beyond the catalog, and bits 63:54 all set. -/
def beforeF12 : State :=
  { base with msgcnt := 1, msg := base.msg.set 0 #v[0x05, 0xD0, 0xF7, 0xBF, 0x00, 0x08, 0xD8, 0xFF] }

/-- F12. -/
theorem test_dec : (issue 0x31000000 beforeF12).lamps = 0b0110 ∧ (issue 0x31000000 beforeF12).adlcnt = 2 ∧
    (issue 0x31000000 beforeF12).adl[1] = ⟨1569, 31, 0⟩ ∧ (issue 0x31000000 beforeF12).dskip = 2 := by decide

/-- The bank of vector F15: every slot valid. -/
def beforeF15 : State :=
  { base with msgcnt := 5, msg := Vector.replicate 5 #v[0x04, 0x0C, 0x20, 0x40, 0x00, 0x00, 0x04, 0x00] }

/-- F15, F17. -/
theorem test_dec_errors : (issue 0x31000000 beforeF15).status = .fatal .listOverflow ∧
    (issue 0x31000000 beforeF15).lamps = 0 ∧ (issue 0x31000000 base).status = .fatal .badOperand := by decide
/-- T2. -/
theorem test_xsig : (issue 0x40000000 { base with name := keySpeed }).res = 0x075B := by decide
/-- T4, T5, T6, T17. -/
theorem test_xsig_errors : (issue 0x40000000 { base with name := keyWide }).status = .fatal .outOfRange ∧
    (issue 0x40000000 { base with name := keyBad0 }).status = .fatal .badDescriptor ∧
    (issue 0x40000000 { base with name := keyNone }).status = .fatal .signalNotFound ∧
    (issue 0x40000003 base).status = .fatal .badOperand := by decide
/-- T3. -/
theorem test_sigloc : (issue 0x41000000 { base with name := keyGear }).loc = 0x030404 := by decide
/-- The note under 95 section 6.1: a length of 65 in a message of 16 bytes. -/
theorem test_sigloc_length : (issue 0x41000002 { base with name := keyLen65 }).status = .fatal .invalidLength ∧
    (issue 0x40000002 { base with name := keyLen65 }).status = .fatal .outOfRange := by decide
/-- The corner case of R180: `RES` is unsigned, and a result can be negative. -/
theorem test_phys : (issue 0x42000000 { base with name := keyTemp, res := 0xFFFFFFFFFFFFFFFF }).pvi.toNat = 2 ^ 64 - 41 ∧
    (issue 0x42000000 { base with name := keyTemp, res := 0 }).pvi = 0x3FFFFFFFFFFFFFFD8 := by decide
/-- T2: the float is whatever `PhysFloat` gives for the three arguments. -/
theorem test_phys_float : (issue 0x42000000 { base with name := keySpeed, res := 0x75B, pvi := 9 }).pvf =
      Config.physFloat 0x75B 0x3B800000 0 ∧
    (issue 0x42000000 { base with name := keySpeed, res := 0x75B, pvi := 9 }).pvi = 9 := ⟨rfl, rfl⟩
/-- R89: a word that is no command writes the code alone. -/
theorem test_illegal : issue 0x40000100 base = { base with status := .fatal .illegalCommand } := by decide

/-! ### The host's transactions and reset -/

/-- The outcome of a step, as far as a test looks at it. -/
def nextOf (o : Host.Outcome State Fault Refusal) : Option State :=
  match o with
  | .next t => some t
  | .fault _ => none
  | .refused _ => none

/-- R26, R67: `FLEN` takes 8 and ignores 9; `STATUS` is read only. -/
theorem test_write : (nextOf (perform (.wr 3 7) base)).map (·.flen) = some 7 ∧
    nextOf (perform (.wr 3 9) base) = some base ∧ nextOf (perform (.wr 1 5) base) = some base := by decide
/-- R22: `MSG[1][6]` has the number `0x8E`, `ADL[2].FMI` the number `0x109`. -/
theorem test_read : (nextOf (perform (.rd 0x109) beforeE1)).map (·.received) = some [(0x109, 11)] ∧
    (nextOf (perform (.wr 0x8E 0xAB) base)).map (fun t => t.msg[1][6]) = some 0xAB := by decide
/-- R22, U10: `0x103` and, with `BUFCAP = 8`, `0x48` are unmapped. -/
theorem test_unmapped : nextOf (perform (.rd 0x103) base) = none ∧ nextOf (perform (.wr 0x48 0) base) = none := by decide
/-- R220, R221. -/
theorem test_reset : (hostReset base).status = .ok ∧ (hostReset base).flen = 0 ∧ (hostReset base).cat = tcat := by decide
/-- R102: `key("SPEED")`. -/
theorem test_name_key : nameKey ['S', 'P', 'E', 'E', 'D'] = some 0x4445455053 := by decide
/-- R103: `ldfb` of two bytes, and `ldmsg` with seven bytes is no line. -/
theorem test_assembler : assembleLine (.ldfb [0x64, 0x5B]) = some [.wr 0x40 0x64, .wr 0x41 0x5B, .wr 3 2] ∧
    assembleLine (.ldmsg 0 [1, 2, 3, 4, 5, 6, 7]) = none ∧ assembleLine (.command (.sext 128)) = none := by decide

/-! ### Witnesses: a state and operands that meet the hypotheses of each statement, clause by clause -/

/-- `base` with one transaction to come. -/
def awaiting (e : HostEvent) : State := { base with pending := [e] }

theorem awaiting_inv (e : HostEvent) : (awaiting e).Inv :=
  ⟨base_inv.flen_le, base_inv.adlcnt_le, base_inv.msgcnt_le, base_inv.enfcnt_le, base_inv.dskip_le,
    base_inv.loc_reserved, base_inv.cat_le, base_inv.desc_le⟩

/-- `DecodeEncodeAgree`: the largest operands of each format. -/
theorem witness_DecodeEncodeAgree : Instr.nop.WellFormed ∧ (Instr.xbits 255 7 127).WellFormed ∧
    (Instr.pbits 255 7 127).WellFormed ∧ (Instr.sext 127).WellFormed ∧ (Instr.movmf 7).WellFormed ∧
    (Instr.phys 255).WellFormed := by decide

/-- `EncodeDecodeAgree`: the word of vector B27. -/
theorem witness_EncodeDecodeAgree : decode 0x10FF077F#32 = .ok (.xbits 255 7 127) := by decide

/-- `IllegalWordsExactly`: a legal word with every operand bit set; a word with one reserved bit; an opcode between
two rows. -/
theorem witness_IllegalWordsExactly :
    (∃ row ∈ reservedOf, (0x10FF077F#32).toNat / 2 ^ 24 = row.1 ∧ (0x10FF077F#32).toNat &&& row.2 = 0) ∧
    (∀ row ∈ reservedOf, (0x10000800#32).toNat / 2 ^ 24 = row.1 → (0x10000800#32).toNat &&& row.2 ≠ 0) ∧
    (∀ row ∈ reservedOf, (0x13000000#32).toNat / 2 ^ 24 = row.1 → (0x13000000#32).toNat &&& row.2 ≠ 0) := by decide

/-- `TableRowsSelectTheirCommand`: a row with operands and a word of it. -/
theorem witness_TableRowsSelectTheirCommand : ("PBITS", (0xFF00F880 : Word), (0x11000000 : Word)) ∈ tableRows ∧
    0x11FF077F#32 &&& 0xFF00F880 = 0x11000000 := by decide

/-- `StepRunsTheDecodedCommand`. -/
theorem witness_StepRunsTheDecodedCommand : decode 0x10000010#32 = .ok (.xbits 0 0 16) ∧
    (awaiting (.wr 0 (0x10000010#32).toNat)).pending = .wr 0 (0x10000010#32).toNat :: [] := by decide

/-- `IllegalWordStepRaisesIllegalCommand`, `EveryCommandWriteHasANextState`: a word with one reserved bit set, a word
whose opcode is between two rows, and the largest word. -/
theorem witness_IllegalWordStepRaisesIllegalCommand :
    (∀ row ∈ reservedOf, (0x10000800#32).toNat / 2 ^ 24 = row.1 → (0x10000800#32).toNat &&& row.2 ≠ 0) ∧
    (awaiting (.wr 0 (0x10000800#32).toNat)).pending = .wr 0 (0x10000800#32).toNat :: [] ∧
    (∀ row ∈ reservedOf, (0x13000000#32).toNat / 2 ^ 24 = row.1 → (0x13000000#32).toNat &&& row.2 ≠ 0) ∧
    (∀ row ∈ reservedOf, (0xFFFFFFFF#32).toNat / 2 ^ 24 = row.1 → (0xFFFFFFFF#32).toNat &&& row.2 ≠ 0) := by decide

/-- `StepPerformsTheReset`. -/
theorem witness_StepPerformsTheReset : (awaiting .reset).pending = .reset :: [] := rfl

/-- `IdleStepChangesNothing`. -/
theorem witness_IdleStepChangesNothing : base.pending = [] := rfl

/-- `HostWriteTakesOrIgnores`, taken: the largest legal values of the three registers that have any, and of a byte. -/
theorem witness_HostWrite_taken :
    (awaiting (.wr Reg.flen.number 8)).pending = .wr Reg.flen.number 8 :: [] ∧ 8 < 2 ^ Reg.flen.width ∧
    Reg.flen.access = .rw ∧ 8 ≤ Config.bufCap ∧ 20 < 2 ^ Reg.adlcnt.width ∧ Reg.adlcnt.access = .rw ∧
    5 < 2 ^ Reg.msgcnt.width ∧ Reg.msgcnt.access = .rw ∧ 255 < 2 ^ (Reg.fb 7).width ∧
    (Reg.fb 7).access = .rw := by decide

/-- `HostWriteTakesOrIgnores`, ignored: the smallest illegal values, and a read-only register. -/
theorem witness_HostWrite_ignored :
    9 < 2 ^ Reg.flen.width ∧ Config.bufCap < 9 ∧ 21 < 2 ^ Reg.adlcnt.width ∧ 20 < 21 ∧
    6 < 2 ^ Reg.msgcnt.width ∧ 5 < 6 ∧ 15 < 2 ^ Reg.status.width ∧ Reg.status.access = .ro ∧
    (awaiting (.wr Reg.status.number 15)).pending = .wr Reg.status.number 15 :: [] := by decide

/-- `HostWriteTakesOrIgnores`, refused: the smallest value that does not fit. -/
theorem witness_HostWrite_refused : 2 ^ Reg.ctrl.width ≤ 2 ∧
    (awaiting (.wr Reg.ctrl.number 2)).pending = .wr Reg.ctrl.number 2 :: [] := by decide

/-- `HostReadGivesTheValue`: the last byte of the frame buffer. -/
theorem witness_HostRead_mapped : (Reg.fb 7).number = 0x47 ∧ (awaiting (.rd 0x47)).pending = .rd 0x47 :: [] := by decide

/-- `HostReadGivesTheValue`: the first number beyond the frame buffer, and a hole in the list. -/
theorem witness_HostRead_unmapped : (∀ r : Reg, r.number ≠ 0x48) ∧ (∀ r : Reg, r.number ≠ 0x103) ∧
    (awaiting (.rd 0x48)).pending = .rd 0x48 :: [] ∧ (awaiting (.wr 0x48 0)).pending = .wr 0x48 0 :: [] := by
  have hb : Config.bufCap = 8 := rfl
  refine ⟨fun r => ?_, fun r => ?_, rfl, rfl⟩ <;> cases r <;> simp only [Reg.number, ne_eq] <;> omega

/-- `StepKeepsLegalStates`, `ConfigurationIsNeverWritten`: an `ENC` from a legal state. -/
theorem witness_StepKeepsLegalStates : (awaiting (.wr 0 0x30000000)).Inv ∧
    ∃ t, step (awaiting (.wr 0 0x30000000)) = .next t :=
  ⟨awaiting_inv _, _, rfl⟩

/-- `FatalErrorWritesOnlyTheCode`. -/
theorem witness_FatalErrorWritesOnlyTheCode :
    (∃ t, exec .dec beforeF15 = .next t ∧ t.status = .fatal .listOverflow) ∧
    ∃ t, issueCommand 0x40000100 base = .next t ∧ t.status = .fatal .illegalCommand :=
  ⟨⟨_, rfl, by decide⟩, _, rfl, by decide⟩

/-- `CommandsWriteOnlyTheirRegisters`: a command that changes its registers. -/
theorem witness_CommandsWriteOnlyTheirRegisters : ∃ t, exec .enc beforeE1 = .next t ∧ t.msg ≠ beforeE1.msg :=
  ⟨_, rfl, by decide⟩

/-- `CommandsDependOnlyOnTheirRegisters`: two states that differ where `ENC` does not look, in the occurrence counts
and in `RES`. -/
theorem witness_CommandsDependOnlyOnTheirRegisters :
    (∀ r, readBy .enc r = true →
      readReg r beforeE1 = readReg r { beforeE1 with res := 1, adl := beforeE1.adl.map fun e => { e with occ := 9 } }) ∧
    beforeE1 ≠ { beforeE1 with res := 1, adl := beforeE1.adl.map fun e => { e with occ := 9 } } := by
  refine ⟨fun r h => ?_, by decide⟩
  cases r <;> simp [readBy] at h <;> simp [readReg]

/-- `MovmfCopiesTheMessage`, `MovfmCopiesTheBuffer`: the first index that names no message, the length that is asked
for, and one that is not. -/
theorem witness_Movfm : 5 ≤ 5 ∧ 5 ≤ 7 ∧ base.flen = 8 ∧ ({ base with flen := 7 } : State).flen ≠ 8 := by decide

/-- `ExtractBitsIsTheField`, `PackBitsOrsTheField`, `XbitsReadsTheField`, `PbitsOrsTheField`: B25 and B21, and the
field that ends at the last bit (B9, B7). -/
theorem witness_field : base.Inv ∧ base.flen.toNat = 8 ∧ 8 * 8 < 8 * 7 + 7 + 2 ∧ (8 * 8 + 0 + 0 ≤ 8 * 8 ∧ 0 = 0) ∧
    8 * 7 + 7 + 1 ≤ 8 * 8 ∧ 8 * 0 + 0 + 64 ≤ 8 * 8 ∧ 64 ≤ 64 := ⟨base_inv, by decide⟩

/-- The same two functions on a 16-byte buffer: a length of 65 that passes the range check (95 section 3.1). -/
theorem witness_field_long : 8 * 0 + 0 + 65 ≤ 8 * 16 ∧ 64 < 65 ∧
    extractBits (Vector.replicate 16 0) 16 0 0 65 = .error .invalidLength := by decide

/-- `ExtractBitsReadsOnlyTheTelegram`: two buffers that differ beyond `total` only. -/
theorem witness_ExtractBitsReadsOnlyTheTelegram :
    (∀ g, g < 8 * 2 → bufBit frameT g = bufBit (frameT.set 2 0xFF) g) ∧ frameT ≠ frameT.set 2 0xFF := by decide

/-- `ExtractAfterPack`, `PackKeepsDisjointFields`: K2 packs, and the two neighbours of its field are disjoint from it. -/
theorem witness_ExtractAfterPack :
    packBits (Vector.replicate 8 0) 8 3 6 10 0x3FF = .ok #v[0x00, 0x00, 0x00, 0xC0, 0xFF, 0x00, 0x00, 0x00] ∧
    0x3FF < 2 ^ 10 ∧ 8 * 3 + 0 + 6 ≤ 8 * 3 + 6 ∧ 8 * 3 + 6 + 10 ≤ 8 * 5 + 0 := by decide

/-- `SextExtendsTheSign`: the lengths where its clauses meet. -/
theorem witness_SextExtendsTheSign : (1 ≤ 1 ∧ 1 ≤ 64) ∧ (1 ≤ 64 ∧ 64 ≤ 64) ∧ (0 = 0 ∨ 64 < 0) ∧ (65 = 0 ∨ 64 < 65) := by
  decide

/-- `LkidxFindsTheFirst`, `LookupsAgree`: (100, 3) is at 0 and again at 7; (999999, 0) is nowhere. -/
theorem witness_LkidxFindsTheFirst :
    ({ base with spn := 520192, fmi := 11 } : State).Inv ∧ tcat[6]? = some (CatEntry.mk 520192 11) ∧
    (∀ j : Nat, j < 6 → tcat[j]? ≠ some (CatEntry.mk 520192 11)) ∧
    (∀ i : Nat, tcat[i]? ≠ some (CatEntry.mk 999999 0)) ∧
    lookupIndex tcat 100 3 = some 0 ∧ lookupEntry tcat 7 = .ok ⟨100, 3⟩ :=
  ⟨by constructor <;> decide, by decide, by decide, lookupIndex_none.mp (by decide), by decide, by decide⟩

/-- `LkentFetchesTheEntry`: the last index of the catalog and the first beyond it. -/
theorem witness_LkentFetchesTheEntry :
    tcat[({ base with idx := 7 } : State).idx.toNat]? = some (CatEntry.mk 100 3) ∧
    tcat.length ≤ ({ base with idx := 8 } : State).idx.toNat := by decide

/-- `LkentAfterLkidx`. -/
theorem witness_LkentAfterLkidx :
    ∃ t, exec .lkidx { base with spn := 100, fmi := 4 } = .next t ∧ t.status = .ok := ⟨_, rfl, by decide⟩

/-- `EncStoresTheMessages`: a legal state, a message below the count and the first one beyond it. -/
theorem witness_EncStoresTheMessages : beforeE1.Inv ∧ (0 : Fin 5).val < expectedCount beforeE1.ctrl beforeE1.adlcnt.toNat ∧
    expectedCount beforeE1.ctrl beforeE1.adlcnt.toNat ≤ (1 : Fin 5).val :=
  ⟨by constructor <;> decide, by decide, by decide⟩

/-- `MessageIsEightPacks`. -/
theorem witness_MessageIsEightPacks : tcat.length ≤ 1024 := by decide

/-- The bank of vector F16: twenty valid slots. -/
def beforeF16 : State := { beforeF15 with msgcnt := 4 }

/-- `DecReadsTheMessages`: F17, F15 and, with exactly twenty entries, F16. -/
theorem witness_DecReadsTheMessages : base.Inv ∧ base.msgcnt = 0 ∧ beforeF15.Inv ∧ beforeF15.msgcnt ≠ 0 ∧
    20 < (validEntries beforeF15 beforeF15.msgcnt.toNat).length ∧ beforeF16.Inv ∧ beforeF16.msgcnt ≠ 0 ∧
    (validEntries beforeF16 beforeF16.msgcnt.toNat).length = 20 :=
  ⟨base_inv, rfl, by constructor <;> decide, by decide, by decide, by constructor <;> decide, by decide, by decide⟩

/-- `DecIgnoresTheHeaders`: the messages of F11 and F12 differ in bits 63:54 alone. -/
theorem witness_DecIgnoresTheHeaders :
    (∀ k : Fin 5,
      bits (memRead (beforeF12.msg.set 0 #v[0x05, 0xD0, 0xF7, 0xBF, 0x00, 0x08, 0x58, 0x00])[k] 0 8) 49 0 =
        bits (memRead beforeF12.msg[k] 0 8) 49 0) ∧
    bits (memRead (#v[0x05, 0xD0, 0xF7, 0xBF, 0x00, 0x08, 0x58, 0x00] : Vector Byte 8) 0 8) 53 50 =
      bits (memRead beforeF12.msg[0] 0 8) 53 50 ∧
    ∃ t, exec .dec beforeF12 = .next t ∧ t.status = .ok :=
  ⟨by decide, by decide, _, rfl, by decide⟩

/-- `DecodeOfEncode`: the list of E1. -/
theorem witness_DecodeOfEncode : tcat.length ≤ 1024 ∧ (listE1.toList.take 3).length ≤ 20 ∧
    ∀ e ∈ listE1.toList.take 3, (lookupIndex tcat e.spn e.fmi).any (fun i => i != 1023) = true := by decide

/-- `DecAfterEnc`: after the `ENC` of E1, a state that has its bank. -/
theorem witness_DecAfterEnc : beforeE1.Inv ∧
    ∃ t, exec .enc beforeE1 = .next t ∧
      (∀ i : Fin 20, i.val < beforeE1.adlcnt.toNat →
        (lookupIndex beforeE1.cat beforeE1.adl[i].spn beforeE1.adl[i].fmi).any (fun x => x != 1023) = true) ∧
      ({ base with msg := t.msg, msgcnt := t.msgcnt } : State).cat = t.cat :=
  ⟨by constructor <;> decide, _, rfl, by decide, rfl⟩

/-- `XsigReadsTheSignal`, `SiglocLocatesTheSignal`: the descriptor, and the signal of each clause. -/
theorem witness_signals : base.desc.length ≤ 3 ∧ base.desc[0]? = some tdesc ∧
    (∀ g ∈ tdesc.sigs, g.name ≠ keyNone) ∧
    findSignal tdesc keyBad0 = .ok sigBad0 ∧ sigBad0.byte1.toNat = 0 ∧
    findSignal tdesc2 keyBad9 = .ok sigBad9 ∧ 8 < sigBad9.bit1.toNat := by decide

/-- The range, length and success clauses of the same two statements: T4, T10, T3, and the length above 64. -/
theorem witness_signals_located :
    (findSignal tdesc keyWide = .ok sigWide ∧ sigWide.byte1.toNat = 7 + 1 ∧ sigWide.bit1.toNat = 5 + 1 ∧
      8 * min 8 8 < 8 * 7 + 5 + sigWide.lengthBits.toNat) ∧
    (findSignal tdesc2 keyLen0 = .ok sigLen0 ∧ sigLen0.byte1.toNat = 0 + 1 ∧ sigLen0.bit1.toNat = 0 + 1 ∧
      sigLen0.lengthBits.toNat = 0) ∧
    (findSignal tdesc keyGear = .ok sigGear ∧ sigGear.byte1.toNat = 3 + 1 ∧ sigGear.bit1.toNat = 4 + 1 ∧
      8 * 3 + 4 + sigGear.lengthBits.toNat ≤ 8 * min 8 8 ∧ 1 ≤ sigGear.lengthBits.toNat) := by decide

/-- `PhysComputesTheValue`: one signal of each kind. -/
theorem witness_PhysComputesTheValue : findSignal tdesc keyTemp = .ok sigTemp ∧ sigTemp.kind = .integer ∧
    findSignal tdesc keySpeed = .ok sigSpeed ∧ sigSpeed.kind = .floatScaled := by decide

/-- `SiglocThenXbitsIsXsig`. -/
theorem witness_SiglocThenXbitsIsXsig : ({ base with name := keyGear } : State).Inv ∧
    (∃ t, exec (.sigloc 0) { base with name := keyGear } = .next t ∧ t.status = .ok) ∧
    tdesc.lenBytes.toNat ≤ ({ base with name := keyGear } : State).flen.toNat :=
  ⟨by constructor <;> decide, ⟨_, rfl, by decide⟩, by decide⟩

/-- `DecodeOfEncodeDropsTheUnencodable`: the list of E4 within capacity, with an entry that is dropped. -/
theorem witness_DecodeOfEncodeDropsTheUnencodable :
    tcat.length ≤ 1024 ∧ [DtcEntry.mk 110 0 7, ⟨999999, 0, 7⟩, ⟨1569, 31, 7⟩].length ≤ 20 ∧
    lookupIndex tcat 999999 0 = none := by decide

/-- `PseudoInstructionsExpand`: the largest operands of each line. -/
theorem witness_PseudoInstructionsExpand :
    0xFFFFFFFF < 2 ^ 32 ∧ 255 < 2 ^ 8 ∧ [1, 2, 3, 4, 5, 6, 7, 255].length ≤ Config.bufCap ∧
    (∀ v ∈ [1, 2, 3, 4, 5, 6, 7, 255], v < 2 ^ 8) ∧ 4 < 5 ∧ [1, 2, 3, 4, 5, 6, 7, 255].length = 8 ∧ 19 < 20 ∧
    nameKey ['S', 'P', 'E', 'E', 'D'] = some 0x4445455053 ∧ 0x4445455053 < 2 ^ 64 :=
  ⟨by omega, by omega, by decide, by decide, by decide, rfl, by decide, test_name_key, by omega⟩

/-- `NameKeyHoldsTheCharacters`: one character and eight. -/
theorem witness_NameKeyHoldsTheCharacters :
    (1 ≤ ['A'].length ∧ ∀ c ∈ ['A'], c.toNat < 128) ∧
    (['A', 'B', 'C', 'D', 'E', 'F', 'G', '9'].length ≤ 8 ∧
      ∀ c ∈ ['A', 'B', 'C', 'D', 'E', 'F', 'G', '9'], c.toNat < 128) := by simp

/-- `AssembledLinesAreNotRefused`. -/
theorem witness_AssembledLinesAreNotRefused :
    assembleLine (.adl 19 100 3) = some [.wr 0x14C 100, .wr 0x14D 3, .wr 0x14E 0] := by decide

/-- `AssembledCommandRuns`: the line whose word is the largest that `sext` has, one beyond it, and its transaction. -/
theorem witness_AssembledCommandRuns : (Instr.sext 127).WellFormed ∧ ¬ (Instr.sext 128).WellFormed ∧
    assembleLine (.command (.sext 127)) = some [.wr 0 0x1200007F] ∧
    (awaiting (.wr 0 0x1200007F)).pending = .wr 0 (encode (.sext 127)).toNat :: [] := by decide

end Sys2Proof.Tests
end

section
/-! SUPPORT. What every command leaves unchanged: the frame of R22, from which the claims on the registers, the
configuration memories and the host's side follow. -/

namespace Sys2Proof.Machine

/-- A frame read positively: each register is either written or as it was, and everything else is as it was. -/
theorem unchanged_of_forall {written : Reg → Bool} {s t : State}
    (h : ∀ r, written r = true ∨ readReg r t = readReg r s)
    (hc : t.toConfiguration = s.toConfiguration) (hh : t.toHostSide = s.toHostSide) :
    Unchanged written s t := by
  refine ⟨fun r hr => (h r).resolve_left (by simp [hr]), ?_⟩
  simp [hc, hh]

theorem unchanged_refl (written : Reg → Bool) (s : State) : Unchanged written s s :=
  unchanged_of_forall (fun _ => .inr rfl) rfl rfl

/-- A frame that admits `STATUS` admits any status on top. -/
theorem unchanged_withStatus {written : Reg → Bool} {s t : State} (c : Status)
    (hst : written .status = true) (h : Unchanged written s t) :
    Unchanged written s (t.withStatus c) := by
  obtain ⟨hreg, hside⟩ := h
  refine ⟨fun r hr => ?_, hside⟩
  have hne : r ≠ .status := by
    rintro rfl
    simp [hst] at hr
  rw [readReg_withStatus _ _ _ hne, hreg r hr]

/-- The frame of a command is the frame of its result: an error writes `STATUS` alone (R203). -/
theorem complete_unchanged {α : Type} {written : Reg → Bool} {s t : State} {r : Except ErrorKind α}
    {w : α → State} (hst : written .status = true)
    (hw : ∀ a, r = .ok a → Unchanged written s (w a)) (h : complete s r w = .next t) :
    Unchanged written s t := by
  obtain ⟨a, ha, rfl⟩ | ⟨e, -, rfl⟩ := complete_next.mp h
  · exact unchanged_withStatus _ hst (hw a ha)
  · exact unchanged_withStatus _ hst (unchanged_refl _ s)

/-- A message operand that is accepted is the message's index (R86). -/
theorem messageOperand_ok {k : Nat} {j : Fin 5} : messageOperand k = .ok j ↔ j.val = k := by
  unfold messageOperand
  split
  · simp [Fin.ext_iff, eq_comm]
  · simp only [reduceCtorEq, false_iff]
    omega

/-- `MOVFM` passes its checks for a message of the bank and a full buffer only (R193). -/
theorem movfmOperand_ok {k : Nat} {flen : BitVec 8} {j : Fin 5} :
    movfmOperand k flen = .ok j ↔ j.val = k ∧ flen = 8 := by
  rw [← messageOperand_ok, movfmOperand]
  cases messageOperand k with
  | error e => simp
  | ok j' =>
    by_cases hf : flen = 8#8 <;> simp [hf]

/-- Everything `LKIDX` can do (R132). -/
theorem execLkidx_cases {s t : State} (h : execLkidx s = .next t) :
    (∃ i, lookupIndex s.cat s.spn s.fmi = some i ∧
      t = { s with idx := BitVec.ofNat 16 i, status := .ok }) ∨
    (lookupIndex s.cat s.spn s.fmi = none ∧ t = { s with idx := 0xFFFF, status := .notFound }) := by
  unfold execLkidx at h
  injection h with h
  cases hl : lookupIndex s.cat s.spn s.fmi <;> simp [hl] at h ⊢ <;> exact h.symm

/-- Storing a message changes no byte of another one (R193). -/
theorem readReg_setMsg_ne {j k : Fin 5} (b : Fin 8) (m : Vector Byte 8) (s : State) (hne : k ≠ j) :
    readReg (.msg k b) { s with msg := s.msg.set j m } = readReg (.msg k b) s := by
  have hv : j.val ≠ k.val := fun e => hne (Fin.ext e.symm)
  simp [readReg, Vector.getElem_set_ne _ _ hv]

/-- A command changes its registers of R22 alone. -/
theorem exec_unchanged {i : Instr} {s t : State} (h : exec i s = .next t) :
    Unchanged (writtenBy i) s t := by
  cases i with
  | lkidx =>
    obtain ⟨-, -, rfl⟩ | ⟨-, rfl⟩ := execLkidx_cases h <;>
    · refine unchanged_of_forall (fun r => ?_) rfl rfl
      cases r <;> simp [writtenBy, readReg]
  | movfm k =>
    refine complete_unchanged rfl ?_ h
    intro j hj
    obtain ⟨rfl, -⟩ := movfmOperand_ok.mp hj
    refine unchanged_of_forall (fun r => ?_) rfl rfl
    cases r with
    | msg m b =>
      by_cases hm : m = j
      · exact .inl (by simp [writtenBy, hm])
      · exact .inr (readReg_setMsg_ne b _ s hm)
    | _ => simp [writtenBy, readReg]
  | phys d =>
    refine complete_unchanged rfl ?_ h
    rintro ⟨x, g⟩ -
    cases hp : physicalValue g s.res <;>
    · simp only [hp, storePhysical]
      refine unchanged_of_forall (fun r => ?_) rfl rfl
      cases r <;> simp [writtenBy, readReg]
  | _ =>
    unfold exec at h
    refine complete_unchanged rfl ?_ h
    intro a _
    refine unchanged_of_forall (fun r => ?_) rfl rfl
    cases r <;> simp [writtenBy, readReg]

/-- A command changes neither the configuration nor the host's side (R42, R43, R46). -/
theorem exec_side {i : Instr} {s t : State} (h : exec i s = .next t) :
    t.toConfiguration = s.toConfiguration ∧ t.toHostSide = s.toHostSide := by
  obtain ⟨-, hcat, hdesc, hpending, hreceived, hresets⟩ := exec_unchanged h
  obtain ⟨_, ⟨⟩, ⟨⟩⟩ := s
  obtain ⟨_, ⟨⟩, ⟨⟩⟩ := t
  simp_all

/-- Settles O21: the frame of every command. -/
theorem commandsWriteOnlyTheirRegisters : Obligations.CommandsWriteOnlyTheirRegisters := by
  unfold Obligations.CommandsWriteOnlyTheirRegisters
  exact fun _ _ _ h => exec_unchanged h

end Sys2Proof.Machine
end

section
/-! SUPPORT. The register map by its numbers (R22), and the machine right after reset (R220). -/

namespace Sys2Proof.Machine

/-- The register found at a number has that number. -/
theorem number_of_regAt {n : Nat} {r : Reg} (h : regAt n = some r) : r.number = n := by
  unfold regAt at h
  split_ifs at h
  case neg => simpa using List.find?_some h
  all_goals
    cases h
    simp only [Reg.number]
    omega

/-- Settles O10: the two directions of the register map. -/
theorem registerMapIsExact : Obligations.RegisterMapIsExact := by
  unfold Obligations.RegisterMapIsExact
  intro n r
  constructor
  · exact number_of_regAt
  · rintro rfl
    exact regAt_number r

/-- Settles O16: the registers are 0 and the configured contents are cut to their largest sizes (R10, R27). -/
theorem resetStateIsLegal : Obligations.ResetStateIsLegal where
  flen_le := Nat.zero_le _
  adlcnt_le := Nat.zero_le _
  msgcnt_le := Nat.zero_le _
  enfcnt_le := Nat.zero_le _
  dskip_le := Nat.zero_le _
  loc_reserved := BitVec.zero_and
  cat_le := List.length_take_le _ _
  desc_le := List.length_take_le _ _

end Sys2Proof.Machine
end

section
/-! SUPPORT. The legal values of R22 are kept by every command, by every host write and so by every step. Each clause
of the invariant is in danger from the one or two commands that write its register; the frame answers for the rest. -/

namespace Sys2Proof.Machine

section
variable {i : Instr} {s t : State}

/-- A register outside a command's column keeps its value. -/
theorem exec_readReg (h : exec i s = .next t) {r : Reg} (hr : writtenBy i r = false) :
    readReg r t = readReg r s :=
  (exec_unchanged h).1 r hr

/-- `MOVMF` alone writes `FLEN`, and writes 8 (R192). -/
theorem exec_flen_le (h : exec i s = .next t) (hs : s.flen.toNat ≤ Config.bufCap) :
    t.flen.toNat ≤ Config.bufCap := by
  cases i with
  | movmf k =>
    obtain ⟨j, -, rfl⟩ | ⟨e, -, rfl⟩ := complete_next.mp h
    · exact Config.msgBytes_le_bufCap
    · exact hs
  | _ => exact (exec_readReg h (r := .flen) rfl).trans_le hs

/-- The active list is a part of the 20 places of `ADL` (R41). -/
theorem activeList_length_le (s : State) : (activeList s).length ≤ 20 := by
  simp [activeList]

/-- The valid messages are a part of the five of the bank (R40). -/
theorem validMessages_length_le (s : State) : (validMessages s).length ≤ 5 := by
  simp [validMessages]

/-- What `ENC` leaves in its two counts (R146). -/
theorem exec_enc_counts (h : exec .enc s = .next t) :
    t.msgcnt = BitVec.ofNat 3 (messageCount (s.ctrl == 1#1) (activeList s).length) ∧
      t.enfcnt = BitVec.ofNat 5 (missCount s.cat (activeList s)) := by
  unfold exec at h
  obtain ⟨out, hout, rfl⟩ | ⟨e, he, -⟩ := complete_next.mp h
  · cases hout
    simp [encodeDtcs_length]
  · cases he

theorem exec_msgcnt_le (h : exec i s = .next t) (hs : s.msgcnt.toNat ≤ 5) : t.msgcnt.toNat ≤ 5 := by
  cases i with
  | enc =>
    obtain ⟨-, hle, -⟩ := messageCount_bounds (s.ctrl == 1#1) (activeList_length_le s)
    rw [(exec_enc_counts h).1, BitVec.toNat_ofNat]
    exact (Nat.mod_le _ _).trans hle
  | _ => exact (exec_readReg h (r := .msgcnt) rfl).trans_le hs

theorem exec_enfcnt_le (h : exec i s = .next t) (hs : s.enfcnt.toNat ≤ 20) :
    t.enfcnt.toNat ≤ 20 := by
  cases i with
  | enc =>
    rw [(exec_enc_counts h).2, BitVec.toNat_ofNat]
    exact (Nat.mod_le _ _).trans ((missCount_le _ _).trans (activeList_length_le s))
  | _ => exact (exec_readReg h (r := .enfcnt) rfl).trans_le hs

/-- A message has five slots (R93). -/
theorem slotFates_length (cat : List CatEntry) (messages : List (Vector Byte 8)) :
    (slotFates cat messages).length = 5 * messages.length := by
  simp [slotFates, slotsOf, List.length_flatMap, Nat.mul_comm]

/-- A decode that succeeds gives at most 20 entries and skips at most its slots (R150, R152). -/
theorem decodeDtcs_bounds {messages : List (Vector Byte 8)} {cat : List CatEntry} {out : Decoded}
    (h : decodeDtcs messages cat = .ok out) :
    out.entries.length ≤ 20 ∧ out.skipped ≤ 5 * messages.length := by
  obtain ⟨-, hd⟩ | ⟨-, -, -, -, hd⟩ | ⟨_, _, -, hle, hd⟩ := decodeDtcs_cases messages cat <;>
    rw [hd] at h <;> cases h
  exact ⟨hle, slotFates_length cat messages ▸ List.countP_le_length⟩

/-- `DEC` keeps its counts, or leaves those of what it decoded (R152, R203). -/
theorem exec_dec_counts (h : exec .dec s = .next t) :
    (t.adlcnt = s.adlcnt ∧ t.dskip = s.dskip) ∨
      ∃ n m, n ≤ 20 ∧ m ≤ 25 ∧ t.adlcnt = BitVec.ofNat 5 n ∧ t.dskip = BitVec.ofNat 5 m := by
  obtain ⟨out, hout, rfl⟩ | ⟨e, -, rfl⟩ := complete_next.mp h
  · obtain ⟨hn, hm⟩ := decodeDtcs_bounds hout
    have hv := validMessages_length_le s
    exact .inr ⟨_, _, hn, by omega, rfl, rfl⟩
  · exact .inl ⟨rfl, rfl⟩

theorem exec_adlcnt_le (h : exec i s = .next t) (hs : s.adlcnt.toNat ≤ 20) :
    t.adlcnt.toNat ≤ 20 := by
  cases i with
  | dec =>
    obtain ⟨ha, -⟩ | ⟨n, -, hn, -, ha, -⟩ := exec_dec_counts h
    · exact ha ▸ hs
    · rw [ha, BitVec.toNat_ofNat]
      exact (Nat.mod_le _ _).trans hn
  | _ => exact (exec_readReg h (r := .adlcnt) rfl).trans_le hs

theorem exec_dskip_le (h : exec i s = .next t) (hs : s.dskip.toNat ≤ 25) : t.dskip.toNat ≤ 25 := by
  cases i with
  | dec =>
    obtain ⟨-, hd⟩ | ⟨-, m, -, hm, -, hd⟩ := exec_dec_counts h
    · exact hd ▸ hs
    · rw [hd, BitVec.toNat_ofNat]
      exact (Nat.mod_le _ _).trans hm
  | _ => exact (exec_readReg h (r := .dskip) rfl).trans_le hs

/-- A located field has a bit index below 8 and a length of at most 64 (R172, R178). -/
theorem siglocField_bounds {d : Nat} {f : BitField} (h : siglocField d s = .ok f) :
    f.bitIndex ≤ 7 ∧ f.lengthBits ≤ 64 := by
  unfold siglocField at h
  split at h
  · cases h
  next x g _ =>
    unfold locateFound at h
    split at h
    · cases h
    next f' hz =>
      obtain ⟨rfl, -, -, hlen⟩ := checkField_ok.mp h
      obtain ⟨-, -, hbit, -⟩ := toZeroBased_ok.mp hz
      exact ⟨hbit, hlen⟩

/-- The layout of `LOC` leaves the bits 15:11 and 7 zero: they are those that format B reserves (R36, R81, R90). -/
theorem fieldOperand_loc_reserved {y b l : Nat} (hb : b ≤ 7) (hl : l ≤ 64) :
    BitVec.ofNat 24 (fieldOperand y b l) &&& 0x00F880#24 = 0#24 := by
  apply BitVec.eq_of_toNat_eq
  have h : fieldOperand y b l % 2 ^ 24 &&& reservedMask .b = 0 := by
    rw [reserved_b, fieldOperand_eq (by omega) (by omega)]
    omega
  simpa [reservedMask] using h

theorem exec_loc_reserved (h : exec i s = .next t) (hs : s.loc &&& 0x00F880#24 = 0#24) :
    t.loc &&& 0x00F880#24 = 0#24 := by
  cases i with
  | sigloc d =>
    obtain ⟨f, hf, rfl⟩ | ⟨e, -, rfl⟩ := complete_next.mp h
    · obtain ⟨hb, hl⟩ := siglocField_bounds hf
      exact fieldOperand_loc_reserved hb hl
    · exact hs
  | _ => exact BitVec.eq_of_toNat_eq (exec_readReg h (r := .loc) rfl) ▸ hs

/-- Every command keeps the legal values. -/
theorem exec_inv (h : exec i s = .next t) (hs : s.Inv) : t.Inv := by
  obtain ⟨-, hcat, hdesc, -⟩ := exec_unchanged h
  exact {
    flen_le := exec_flen_le h hs.flen_le
    adlcnt_le := exec_adlcnt_le h hs.adlcnt_le
    msgcnt_le := exec_msgcnt_le h hs.msgcnt_le
    enfcnt_le := exec_enfcnt_le h hs.enfcnt_le
    dskip_le := exec_dskip_le h hs.dskip_le
    loc_reserved := exec_loc_reserved h hs.loc_reserved
    cat_le := hcat ▸ hs.cat_le
    desc_le := hdesc ▸ hs.desc_le }

end

section
variable {r : Reg} {v : Nat} {s : State}

/-- A host write keeps a bound on a register whose legal values obey it. -/
theorem readReg_writeReg_le {q : Reg} {n : Nat} (hv : v < 2 ^ r.width)
    (hq : r = q → r.access = .rw → r.legal v = true → v ≤ n) (hs : readReg q s ≤ n) :
    readReg q (writeReg r v s) ≤ n := by
  obtain ⟨ha, hl, hw⟩ | ⟨-, hw⟩ := writeReg_cases r v s
  · rw [hw]
    by_cases hrq : r = q
    · subst hrq
      exact (setReg_self s hv ha).trans_le (hq rfl ha hl)
    · exact (setReg_other v s (Ne.symm hrq)).trans_le hs
  · exact hw.symm ▸ hs

/-- A host write changes no read-only register (R67). -/
theorem readReg_writeReg_ro {q : Reg} (hq : q.access ≠ .rw) :
    readReg q (writeReg r v s) = readReg q s := by
  obtain ⟨ha, -, hw⟩ | ⟨-, hw⟩ := writeReg_cases r v s
  · rw [hw]
    apply setReg_other
    rintro rfl
    exact hq ha
  · rw [hw]

/-- A host write changes neither the configuration memories nor the host's side. -/
theorem writeReg_side :
    (writeReg r v s).toConfiguration = s.toConfiguration ∧
      (writeReg r v s).toHostSide = s.toHostSide := by
  obtain ⟨-, -, hw⟩ | ⟨-, hw⟩ := writeReg_cases r v s <;> rw [hw]
  · cases r <;> exact ⟨rfl, rfl⟩
  · exact ⟨rfl, rfl⟩

/-- A host write keeps the legal values: an illegal one is ignored (R26, R28, R29, R67). -/
theorem writeReg_inv (hv : v < 2 ^ r.width) (hs : s.Inv) : (writeReg r v s).Inv := by
  obtain ⟨hconf, -⟩ := writeReg_side (r := r) (v := v) (s := s)
  have hloc : (writeReg r v s).loc = s.loc :=
    BitVec.eq_of_toNat_eq (readReg_writeReg_ro (q := .loc) (by decide))
  exact {
    flen_le := readReg_writeReg_le (q := .flen) hv
      (by rintro rfl - hl; exact of_decide_eq_true hl) hs.flen_le
    adlcnt_le := readReg_writeReg_le (q := .adlcnt) hv
      (by rintro rfl - hl; exact of_decide_eq_true hl) hs.adlcnt_le
    msgcnt_le := readReg_writeReg_le (q := .msgcnt) hv
      (by rintro rfl - hl; exact of_decide_eq_true hl) hs.msgcnt_le
    enfcnt_le := (readReg_writeReg_ro (q := .enfcnt) (by decide)).trans_le hs.enfcnt_le
    dskip_le := (readReg_writeReg_ro (q := .dskip) (by decide)).trans_le hs.dskip_le
    loc_reserved := hloc ▸ hs.loc_reserved
    cat_le := hconf ▸ hs.cat_le
    desc_le := hconf ▸ hs.desc_le }

end

/-- The invariant speaks of the machine state and the configuration, not of the host's side. -/
theorem inv_withHostSide {s : State} (h : HostSide) (hs : s.Inv) :
    ({ s with toHostSide := h } : State).Inv :=
  { hs with }

/-- Reset leaves legal values (R220, R221). -/
theorem hostReset_inv {s : State} (hs : s.Inv) : (hostReset s).Inv where
  flen_le := Nat.zero_le _
  adlcnt_le := Nat.zero_le _
  msgcnt_le := Nat.zero_le _
  enfcnt_le := Nat.zero_le _
  dskip_le := Nat.zero_le _
  loc_reserved := hostReset_loc_reserved s
  cat_le := hs.cat_le
  desc_le := hs.desc_le

/-- What every transaction keeps, every step keeps: the host's side changed (a transaction taken, a value read), a
reset, a register written, a command executed, an illegal word. -/
theorem step_preserves {P : State → Prop}
    (hhost : ∀ s h, P s → P { s with toHostSide := h })
    (hreset : ∀ s, P s → P (hostReset s))
    (hwrite : ∀ r v s, v < 2 ^ r.width → P s → P (writeReg r v s))
    (hexec : ∀ i s t, exec i s = .next t → P s → P t)
    (hraise : ∀ e s, P s → P (raise e s))
    {s t : State} (hs : P s) (h : step s = .next t) : P t := by
  cases hp : s.pending with
  | nil =>
    rw [step, runNext, hp] at h
    cases h
    exact hs
  | cons e rest =>
    rw [step_cons hp] at h
    have hs' := hhost s { s.toHostSide with pending := rest } hs
    obtain ⟨-, rfl⟩ | ⟨n, r, -, -, rfl⟩ | ⟨n, v, r, -, -, hv, -, rfl⟩ | ⟨n, v, i, -, -, hi⟩ |
      ⟨n, v, -, rfl⟩ := perform_cases h
    · exact hreset _ hs'
    · exact hhost _ _ hs'
    · exact hwrite r v _ hv hs'
    · exact hexec i _ _ hi hs'
    · exact hraise _ _ hs'

/-- Settles O17: the invariant is kept by each kind of transaction. -/
theorem stepKeepsLegalStates : Obligations.StepKeepsLegalStates := by
  unfold Obligations.StepKeepsLegalStates
  intro s t hs h
  exact step_preserves (P := State.Inv) (fun _ h hs => inv_withHostSide h hs)
    (fun _ hs => hostReset_inv hs) (fun _ _ _ hv hs => writeReg_inv hv hs)
    (fun _ _ _ h hs => exec_inv h hs) (fun _ _ hs => { hs with }) hs h

/-- Settles O18: no kind of transaction changes the configuration. -/
theorem configurationIsNeverWritten : Obligations.ConfigurationIsNeverWritten := by
  unfold Obligations.ConfigurationIsNeverWritten
  intro s t h
  have hconf : t.toConfiguration = s.toConfiguration :=
    step_preserves (P := fun u => u.toConfiguration = s.toConfiguration)
      (fun _ _ hu => hu) (fun _ hu => hu) (fun _ _ _ _ hu => writeReg_side.1.trans hu)
      (fun _ _ _ h hu => (exec_side h).1.trans hu) (fun _ _ hu => hu) rfl h
  simp [hconf]

end Sys2Proof.Machine
end

section
/-! SUPPORT. The host's side plays no part in a command or in a host write (R45, R46): what each does to the machine
state is a function, read off from a run beside a host with nothing to do. -/

namespace Sys2Proof.Machine

/-- The host's side with no transaction to come, nothing read and no reset performed. -/
def HostSide.idle : HostSide := ⟨[], [], 0⟩

/-- What a command makes of the machine state under a configuration: the machine state it leaves beside an idle
host. -/
def commandEffect (i : Instr) (c : Configuration) (m : CfpState) : CfpState :=
  match exec i ⟨m, c, .idle⟩ with
  | .next t => t.toCfpState
  | .fault _ | .refused _ => m

/-- What a host write to a register other than `CMD` makes of the machine state, read off in the same way. -/
def writeEffect (r : Reg) (v : Nat) (c : Configuration) (m : CfpState) : CfpState :=
  (writeReg r v ⟨m, c, .idle⟩).toCfpState

/-- A command whose checks and result do not look at the host's side ends alike beside any host. -/
theorem complete_withHostSide {α : Type} {s t : State} {r : Except ErrorKind α} {w w' : α → State}
    (host : HostSide) (hw : ∀ a, w' a = { w a with toHostSide := host })
    (h : complete s r w = .next t) :
    complete { s with toHostSide := host } r w' = .next { t with toHostSide := host } := by
  obtain ⟨a, rfl, rfl⟩ | ⟨e, rfl, rfl⟩ := complete_next.mp h
  · rw [complete_ok, hw]
    rfl
  · rfl

/-- A command does the same beside any host (R46). -/
theorem exec_withHostSide {i : Instr} {s t : State} (host : HostSide) (h : exec i s = .next t) :
    exec i { s with toHostSide := host } = .next { t with toHostSide := host } := by
  cases i with
  | lkidx =>
    obtain ⟨j, hl, rfl⟩ | ⟨hl, rfl⟩ := execLkidx_cases h <;> simp [exec, execLkidx, hl]
  | phys d =>
    refine complete_withHostSide host ?_ h
    rintro ⟨x, g⟩
    dsimp only
    cases physicalValue g s.res <;> rfl
  | _ =>
    unfold exec at h ⊢
    exact complete_withHostSide host (fun _ => rfl) h

/-- Every command answers a next state (R232). -/
theorem exec_isNext (i : Instr) (s : State) : ∃ t, exec i s = .next t := by
  cases i <;> exact ⟨_, rfl⟩

/-- A command replaces the machine state by its effect on it and touches nothing else. -/
theorem exec_eq_commandEffect (i : Instr) (s : State) :
    exec i s = .next { s with toCfpState := commandEffect i s.toConfiguration s.toCfpState } := by
  obtain ⟨t, ht⟩ := exec_isNext i { s with toHostSide := .idle }
  obtain ⟨hconf, -⟩ := exec_side ht
  have hrun := exec_withHostSide s.toHostSide ht
  have heff : commandEffect i s.toConfiguration s.toCfpState = t.toCfpState := by
    rw [commandEffect, ht]
  rw [heff, hrun, hconf]

/-- A host write to a register other than `CMD` does so too. -/
theorem writeReg_eq_writeEffect (r : Reg) (v : Nat) (s : State) :
    writeReg r v s = { s with toCfpState := writeEffect r v s.toConfiguration s.toCfpState } := by
  unfold writeEffect writeReg
  split
  · cases r <;> rfl
  · rfl

/-- A word issued does so too: it is a command, or it raises its error (R80). -/
theorem issueCommand_effect (w : Word) :
    ∃ f : Configuration → CfpState → CfpState, ∀ s : State,
      issueCommand w s = .next { s with toCfpState := f s.toConfiguration s.toCfpState } := by
  unfold issueCommand
  cases decode w with
  | ok i => exact ⟨commandEffect i, exec_eq_commandEffect i⟩
  | error e => exact ⟨fun _ m => { m with status := .fatal .illegalCommand }, fun _ => rfl⟩

/-- Settles O23: a command by its effect; a host write by whether its number is mapped, whether its value fits, and
whether it issues a word. -/
theorem effectsAreFunctionsOfStateAndConfiguration :
    Obligations.EffectsAreFunctionsOfStateAndConfiguration := by
  unfold Obligations.EffectsAreFunctionsOfStateAndConfiguration
  refine ⟨fun i => ⟨commandEffect i, exec_eq_commandEffect i⟩, fun n v => ?_⟩
  simp only [perform, hostWrite]
  cases regAt n with
  | none => exact .inl ⟨_, fun _ => rfl⟩
  | some r =>
    by_cases hv : v < 2 ^ r.width
    · right
      by_cases hr : r = .cmd
      · subst hr
        simpa only [hv, if_true] using issueCommand_effect (BitVec.ofNat 32 v)
      · simp only [hv, hr, if_true, if_false]
        exact ⟨writeEffect r v, fun s => congrArg _ (writeReg_eq_writeEffect r v s)⟩
    · simp only [hv, if_false]
      exact .inl ⟨_, fun _ => rfl⟩

end Sys2Proof.Machine
end

section
/-! SUPPORT. Two runs of one command from states that agree on the registers it reads (R45, the column "read by
commands" of R22). -/

namespace Sys2Proof.Machine

/-- From `s` to `t` and from `s'` to `t'` a register becomes equal in both or stays in both. -/
def SameEffect (s s' t t' : State) (q : Reg) : Prop :=
  readReg q t = readReg q t' ∨ (readReg q t = readReg q s ∧ readReg q t' = readReg q s')

/-- Two states agree on the registers a command reads and on the configuration memories. -/
structure AgreeFor (i : Instr) (s s' : State) : Prop where
  read : ∀ r, readBy i r = true → readReg r s = readReg r s'
  cat : s.cat = s'.cat
  desc : s.desc = s'.desc

/-! ### Agreement register by register -/

section
variable {i : Instr} {s s' : State} (h : AgreeFor i s s')
include h

theorem AgreeFor.ctrl (hr : readBy i .ctrl = true) : s.ctrl = s'.ctrl :=
  BitVec.eq_of_toNat_eq (h.read _ hr)
theorem AgreeFor.flen (hr : readBy i .flen = true) : s.flen = s'.flen :=
  BitVec.eq_of_toNat_eq (h.read _ hr)
theorem AgreeFor.adlcnt (hr : readBy i .adlcnt = true) : s.adlcnt = s'.adlcnt :=
  BitVec.eq_of_toNat_eq (h.read _ hr)
theorem AgreeFor.msgcnt (hr : readBy i .msgcnt = true) : s.msgcnt = s'.msgcnt :=
  BitVec.eq_of_toNat_eq (h.read _ hr)
theorem AgreeFor.val (hr : readBy i .val = true) : s.val = s'.val :=
  BitVec.eq_of_toNat_eq (h.read _ hr)
theorem AgreeFor.res (hr : readBy i .res = true) : s.res = s'.res :=
  BitVec.eq_of_toNat_eq (h.read _ hr)
theorem AgreeFor.spn (hr : readBy i .spn = true) : s.spn = s'.spn :=
  BitVec.eq_of_toNat_eq (h.read _ hr)
theorem AgreeFor.fmi (hr : readBy i .fmi = true) : s.fmi = s'.fmi :=
  BitVec.eq_of_toNat_eq (h.read _ hr)
theorem AgreeFor.idx (hr : readBy i .idx = true) : s.idx = s'.idx :=
  BitVec.eq_of_toNat_eq (h.read _ hr)
theorem AgreeFor.name (hr : readBy i .name = true) : s.name = s'.name :=
  BitVec.eq_of_toNat_eq (h.read _ hr)
theorem AgreeFor.lamps (hr : readBy i .lamps = true) : s.lamps = s'.lamps :=
  BitVec.eq_of_toNat_eq (h.read _ hr)

theorem AgreeFor.fb (hr : ∀ j, readBy i (.fb j) = true) : s.fb = s'.fb :=
  Vector.ext fun j hj => BitVec.eq_of_toNat_eq (h.read _ (hr ⟨j, hj⟩))

theorem AgreeFor.message {k : Fin 5} (hr : ∀ j, readBy i (.msg k j) = true) : s.msg[k] = s'.msg[k] :=
  Vector.ext fun j hj => BitVec.eq_of_toNat_eq (h.read _ (hr ⟨j, hj⟩))

/-- The valid messages agree where the bank and its count do (R29). -/
theorem AgreeFor.validMessages (hr : ∀ k j, readBy i (.msg k j) = true)
    (hc : readBy i .msgcnt = true) : validMessages s = validMessages s' := by
  have hbank : s.msg = s'.msg := Vector.ext fun k hk => h.message (k := ⟨k, hk⟩) (hr _)
  rw [Machine.validMessages, Machine.validMessages, hbank, h.msgcnt hc]

end

/-! ### Encoding does not see occurrence counts -/

/-- An entry of the list without its occurrence count: all that encoding looks at (R141). -/
def DtcEntry.pair (e : DtcEntry) : CatEntry := ⟨e.spn, e.fmi⟩

section
variable (cat : List CatEntry) {l l' : List DtcEntry}
  (h : l.map DtcEntry.pair = l'.map DtcEntry.pair)
include h

theorem slotIndex_eq_of_pairs (k : Nat) : slotIndex cat l k = slotIndex cat l' k := by
  have hk : l[k]?.map DtcEntry.pair = l'[k]?.map DtcEntry.pair := by
    rw [← List.getElem?_map, h, List.getElem?_map]
  unfold slotIndex
  cases he : l[k]? <;> cases he' : l'[k]? <;> simp_all [DtcEntry.pair]

theorem missCount_eq_of_pairs : missCount cat l = missCount cat l' := by
  have hmap : ∀ l : List DtcEntry, missCount cat l =
      (l.map DtcEntry.pair).countP fun e => (lookupIndex cat e.spn e.fmi).isNone := by
    intro l
    rw [List.countP_map]
    rfl
  rw [hmap, h, ← hmap]

theorem encodeDtcs_eq_of_pairs (ceilcnt : Bool) (lamps : BitVec 4) :
    encodeDtcs ceilcnt lamps l cat = encodeDtcs ceilcnt lamps l' cat := by
  have hlen : l.length = l'.length := by simpa using congrArg List.length h
  simp only [encodeDtcs, messageValue, hlen, slotIndex_eq_of_pairs cat h]

end

/-- The pairs of the active list agree where the first two fields of `ADL` and its count do (R28). -/
theorem AgreeFor.activePairs {i : Instr} {s s' : State} (h : AgreeFor i s s')
    (hspn : ∀ j, readBy i (.adlSpn j) = true) (hfmi : ∀ j, readBy i (.adlFmi j) = true)
    (hc : readBy i .adlcnt = true) :
    (activeList s).map DtcEntry.pair = (activeList s').map DtcEntry.pair := by
  have hadl : s.adl.map DtcEntry.pair = s'.adl.map DtcEntry.pair := by
    refine Vector.ext fun j hj => ?_
    have h1 : s.adl[j].spn = s'.adl[j].spn := BitVec.eq_of_toNat_eq (h.read _ (hspn ⟨j, hj⟩))
    have h2 : s.adl[j].fmi = s'.adl[j].fmi := BitVec.eq_of_toNat_eq (h.read _ (hfmi ⟨j, hj⟩))
    simp [DtcEntry.pair, h1, h2]
  simp only [activeList, List.map_take, ← Vector.toList_map, hadl, h.adlcnt hc]

/-! ### The effects -/

section
variable {s s' t t' : State}

/-- A status written in both runs, the same one, is an equal effect on `STATUS` and none on the rest. -/
theorem sameEffect_withStatus {q : Reg} (c : Status) (h : SameEffect s s' t t' q) :
    SameEffect s s' (t.withStatus c) (t'.withStatus c) q := by
  by_cases hq : q = .status
  · subst hq
    exact .inl rfl
  · simp only [SameEffect, readReg_withStatus _ _ _ hq]
    exact h

/-- Two runs whose checks answer the same have the same effect if their results have. -/
theorem complete_sameEffect {α : Type} {r r' : Except ErrorKind α} {w w' : α → State}
    (hr : r = r') (hw : ∀ a, r = .ok a → ∀ q, SameEffect s s' (w a) (w' a) q)
    (h : complete s r w = .next t) (h' : complete s' r' w' = .next t') (q : Reg) :
    SameEffect s s' t t' q := by
  subst hr
  obtain ⟨a, ha, rfl⟩ | ⟨e, he, rfl⟩ := complete_next.mp h
  · rw [ha, complete_ok] at h'
    cases h'
    exact sameEffect_withStatus _ (hw a ha q)
  · rw [he, complete_error] at h'
    cases h'
    exact sameEffect_withStatus _ (.inr ⟨rfl, rfl⟩)

theorem sameEffect_res (v : BitVec 64) (q : Reg) :
    SameEffect s s' { s with res := v } { s' with res := v } q := by
  cases q <;> simp [SameEffect, readReg]

theorem sameEffect_fb (fb : Vector Byte Config.bufCap) (q : Reg) :
    SameEffect s s' { s with fb := fb } { s' with fb := fb } q := by
  cases q <;> simp [SameEffect, readReg]

/-- `MOVMF` copies one message into both buffers, and every byte of a buffer is copied (R192). -/
theorem movmf_sameEffect {k : Nat} (ha : AgreeFor (.movmf k) s s')
    (h : exec (.movmf k) s = .next t) (h' : exec (.movmf k) s' = .next t') (q : Reg) :
    SameEffect s s' t t' q := by
  refine complete_sameEffect rfl ?_ h h' q
  intro j hj q
  have hmsg : s.msg[j] = s'.msg[j] :=
    ha.message fun _ => decide_eq_true (messageOperand_ok.mp hj)
  cases q with
  | fb b =>
    have hbyte : s.msg[j.val][b.val] = s'.msg[j.val][b.val] := congrArg (fun m => m[b.val]) hmsg
    exact .inl (by simp [readReg, hbyte])
  | _ => simp [SameEffect, readReg]

/-- `MOVFM` stores one message in both banks and leaves the other messages (R193). -/
theorem movfm_sameEffect {k : Nat} (ha : AgreeFor (.movfm k) s s')
    (h : exec (.movfm k) s = .next t) (h' : exec (.movfm k) s' = .next t') (q : Reg) :
    SameEffect s s' t t' q := by
  refine complete_sameEffect (by rw [ha.flen rfl]) ?_ h h' q
  intro j _ q
  cases q with
  | msg m b =>
    by_cases hm : m = j
    · subst hm
      exact .inl (by simp [readReg, ha.fb fun _ => rfl])
    · exact .inr ⟨readReg_setMsg_ne b _ s hm, readReg_setMsg_ne b _ s' hm⟩
  | _ => simp [SameEffect, readReg]

/-- `LKIDX` finds the same index in both runs, or misses in both (R132). -/
theorem lkidx_sameEffect (ha : AgreeFor .lkidx s s')
    (h : exec .lkidx s = .next t) (h' : exec .lkidx s' = .next t') (q : Reg) :
    SameEffect s s' t t' q := by
  have hl : lookupIndex s.cat s.spn s.fmi = lookupIndex s'.cat s'.spn s'.fmi := by
    rw [ha.cat, ha.spn rfl, ha.fmi rfl]
  obtain ⟨j, hj, rfl⟩ | ⟨hj, rfl⟩ := execLkidx_cases h <;> rw [hl] at hj
  · obtain ⟨j', hj', rfl⟩ | ⟨hj', -⟩ := execLkidx_cases h' <;> rw [hj] at hj' <;> cases hj'
    cases q <;> simp [SameEffect, readReg]
  · obtain ⟨j', hj', -⟩ | ⟨-, rfl⟩ := execLkidx_cases h'
    · rw [hj] at hj'
      cases hj'
    · cases q <;> simp [SameEffect, readReg]

/-- A message stored in both banks is equal in both, and one beyond is as it was (R146). -/
theorem storeMessages_eq_or (bank bank' : Vector (Vector Byte 8) 5) (out : List (Vector Byte 8))
    (k : Fin 5) :
    (storeMessages bank out)[k] = (storeMessages bank' out)[k] ∨
      ((storeMessages bank out)[k] = bank[k] ∧ (storeMessages bank' out)[k] = bank'[k]) := by
  simp only [storeMessages, Fin.getElem_fin, Vector.getElem_mapIdx]
  cases out[k.val]? <;> simp

/-- An entry stored in both lists is equal in both, and one beyond is as it was (R152). -/
theorem storeEntries_eq_or (adl adl' : Vector DtcEntry 20) (out : List CatEntry) (j : Fin 20) :
    (storeEntries adl out)[j] = (storeEntries adl' out)[j] ∨
      ((storeEntries adl out)[j] = adl[j] ∧ (storeEntries adl' out)[j] = adl'[j]) := by
  simp only [storeEntries, Fin.getElem_fin, Vector.getElem_mapIdx]
  cases out[j.val]? <;> simp

/-- `ENC` stores the same messages in both runs, whatever the occurrence counts (R146). -/
theorem enc_sameEffect (ha : AgreeFor .enc s s')
    (h : exec .enc s = .next t) (h' : exec .enc s' = .next t') (q : Reg) :
    SameEffect s s' t t' q := by
  unfold exec at h h'
  have hpairs := ha.activePairs (fun _ => rfl) (fun _ => rfl) rfl
  refine complete_sameEffect ?_ ?_ h h' q
  · rw [ha.ctrl rfl, ha.lamps rfl, ha.cat, encodeDtcs_eq_of_pairs _ hpairs]
  · intro out _ q
    cases q with
    | msg k j =>
      obtain he | ⟨he, he'⟩ := storeMessages_eq_or s.msg s'.msg out k
      · exact .inl (by simp only [readReg, he])
      · exact .inr (by simp only [readReg, he, he', and_self])
    | _ => simp [SameEffect, readReg, ha.cat, missCount_eq_of_pairs _ hpairs]

/-- `DEC` stores the same entries in both runs (R152). -/
theorem dec_sameEffect (ha : AgreeFor .dec s s')
    (h : exec .dec s = .next t) (h' : exec .dec s' = .next t') (q : Reg) :
    SameEffect s s' t t' q := by
  refine complete_sameEffect (by rw [ha.validMessages (fun _ _ => rfl) rfl, ha.cat]) ?_ h h' q
  intro out _ q
  cases q with
  | adlSpn j | adlFmi j | adlOcc j =>
    obtain he | ⟨he, he'⟩ := storeEntries_eq_or s.adl s'.adl out.entries j
    · exact .inl (by simp only [readReg, he])
    · exact .inr (by simp only [readReg, he, he', and_self])
  | _ => simp [SameEffect, readReg]

/-- `PHYS` writes the same one of `PVI` and `PVF` in both runs (R180). -/
theorem phys_sameEffect {d : Nat} (ha : AgreeFor (.phys d) s s')
    (h : exec (.phys d) s = .next t) (h' : exec (.phys d) s' = .next t') (q : Reg) :
    SameEffect s s' t t' q := by
  refine complete_sameEffect (by rw [ha.desc, ha.name rfl]) ?_ h h' q
  rintro ⟨x, g⟩ - q
  simp only [ha.res rfl]
  cases physicalValue g s'.res <;> cases q <;> simp [SameEffect, readReg, storePhysical]

/-- Two runs of a command that agree on what it reads have the same effect on every register: its checks answer the
same in both, and so does its result. -/
theorem exec_sameEffect {i : Instr} (ha : AgreeFor i s s')
    (h : exec i s = .next t) (h' : exec i s' = .next t') (q : Reg) : SameEffect s s' t t' q := by
  cases i with
  | nop =>
    unfold exec at h h'
    exact complete_sameEffect rfl (fun _ _ _ => .inr ⟨rfl, rfl⟩) h h' q
  | clrfb =>
    unfold exec at h h'
    exact complete_sameEffect rfl (fun _ _ => sameEffect_fb _) h h' q
  | movmf k => exact movmf_sameEffect ha h h' q
  | movfm k => exact movfm_sameEffect ha h h' q
  | xbits y b l =>
    refine complete_sameEffect ?_ (fun _ _ => sameEffect_res _) h h' q
    rw [ha.fb fun _ => rfl, ha.flen rfl]
  | pbits y b l =>
    refine complete_sameEffect ?_ (fun _ _ => sameEffect_fb _) h h' q
    rw [ha.fb fun _ => rfl, ha.flen rfl, ha.val rfl]
  | sext l =>
    refine complete_sameEffect rfl (fun n _ => ?_) h h' q
    rw [ha.res rfl]
    exact sameEffect_res _
  | lkidx => exact lkidx_sameEffect ha h h' q
  | lkent =>
    refine complete_sameEffect (by rw [ha.idx rfl, ha.cat]) (fun _ _ q => ?_) h h' q
    cases q <;> simp [SameEffect, readReg]
  | enc => exact enc_sameEffect ha h h' q
  | dec => exact dec_sameEffect ha h h' q
  | xsig d =>
    refine complete_sameEffect ?_ (fun _ _ => sameEffect_res _) h h' q
    simp only [xsigValue, ha.desc, ha.name rfl, ha.fb fun _ => rfl, ha.flen rfl]
  | sigloc d =>
    refine complete_sameEffect (by rw [siglocField, ha.desc, ha.name rfl, ← siglocField])
      (fun _ _ q => ?_) h h' q
    cases q <;> simp [SameEffect, readReg]
  | phys d => exact phys_sameEffect ha h h' q

end

/-- Settles O22: each command has the same effect in two runs that agree on what it reads. -/
theorem commandsDependOnlyOnTheirRegisters : Obligations.CommandsDependOnlyOnTheirRegisters := by
  unfold Obligations.CommandsDependOnlyOnTheirRegisters
  intro i s s' t t' hread hcat hdesc h h'
  exact exec_sameEffect ⟨hread, hcat, hdesc⟩ h h'

end Sys2Proof.Machine
end

section
/-! SUPPORT. One equation per kind of host access (R67 to R69), and the step over each at the head of the queue. -/

namespace Sys2Proof.Machine

/-- A number that is no register's is unmapped (R22). -/
theorem regAt_eq_none {n : Nat} (h : ∀ r : Reg, r.number ≠ n) : regAt n = none :=
  Option.eq_none_iff_forall_ne_some.mpr fun r hr => h r (number_of_regAt hr)

/-- The values a host write can store, register by register (R26, R28, R29). -/
theorem legal_iff (r : Reg) (v : Nat) :
    r.legal v = true ↔
      (r = .flen → v ≤ Config.bufCap) ∧ (r = .adlcnt → v ≤ 20) ∧ (r = .msgcnt → v ≤ 5) := by
  cases r <;> simp [Reg.legal]

section
variable {r : Reg} {v n : Nat} {s : State}

theorem perform_read (r : Reg) (s : State) :
    perform (.rd r.number) s =
      .next { s with received := (r.number, readReg r s) :: s.received } := by
  rw [perform, hostRead, regAt_number]

theorem perform_write (hv : v < 2 ^ r.width) (hr : r ≠ .cmd) :
    perform (.wr r.number v) s = .next (writeReg r v s) := by
  simp only [perform, hostWrite, regAt_number, if_pos hv, if_neg hr]

theorem perform_write_tooWide (hv : 2 ^ r.width ≤ v) :
    perform (.wr r.number v) s = .refused (.valueTooWide r.number v) := by
  simp only [perform, hostWrite, regAt_number, if_neg hv.not_gt]

theorem perform_read_unmapped (h : regAt n = none) :
    perform (.rd n) s = .refused (.unmappedRegister n) := by
  rw [perform, hostRead, h]

theorem perform_write_unmapped (h : regAt n = none) :
    perform (.wr n v) s = .refused (.unmappedRegister n) := by
  rw [perform, hostWrite, h]

/-- A legal write to a `RW` register is taken (R67). -/
theorem readReg_writeReg_self (hv : v < 2 ^ r.width) (ha : r.access = .rw)
    (hl : r.legal v = true) : readReg r (writeReg r v s) = v := by
  rw [writeReg, if_pos ⟨ha, hl⟩]
  exact setReg_self s hv ha

/-- A write to a register changes that register alone (R67). -/
theorem writeReg_unchanged (r : Reg) (v : Nat) (s : State) :
    Unchanged (fun q => decide (q = r)) s (writeReg r v s) := by
  obtain ⟨-, -, hw⟩ | ⟨-, hw⟩ := writeReg_cases r v s <;> rw [hw]
  · exact ⟨fun q hq => setReg_other v s (of_decide_eq_false hq), setReg_side r v s⟩
  · exact unchanged_refl _ s

/-- A write to a register that is not `RW`, or of a value that is not legal there, is ignored (R67). -/
theorem writeReg_ignored (h : ¬ (r.access = .rw ∧ r.legal v = true)) : writeReg r v s = s :=
  if_neg h

/-- What R67 says is ignored is a write to no `CMD`, and one that finds no `RW` register or no legal value there. -/
theorem ignored_write
    (h : r.access = .ro ∨ (r = .flen ∧ Config.bufCap < v) ∨ (r = .adlcnt ∧ 20 < v) ∨
      (r = .msgcnt ∧ 5 < v)) :
    r ≠ .cmd ∧ ¬ (r.access = .rw ∧ r.legal v = true) := by
  rw [legal_iff]
  obtain hro | ⟨rfl, hv⟩ | ⟨rfl, hv⟩ | ⟨rfl, hv⟩ := h
  · refine ⟨?_, by simp [hro]⟩
    rintro rfl
    cases hro
  all_goals simp [hv]

end

/-- Settles O11: a write that fits is `writeReg` on the state without the transaction, one that does not is refused. -/
theorem hostWriteTakesOrIgnores : Obligations.HostWriteTakesOrIgnores := by
  unfold Obligations.HostWriteTakesOrIgnores
  intro s r v rest hp
  rw [step_cons hp]
  refine ⟨fun hv ha hflen hadl hmsg => ?taken, fun hv hign => ?ignored, perform_write_tooWide⟩
  case taken =>
    have hr : r ≠ .cmd := by
      rintro rfl
      cases ha
    have hl : r.legal v = true := (legal_iff r v).mpr ⟨hflen, hadl, hmsg⟩
    exact ⟨_, perform_write hv hr, readReg_writeReg_self hv ha hl, writeReg_unchanged r v _⟩
  case ignored =>
    obtain ⟨hr, hw⟩ := ignored_write hign
    rw [perform_write hv hr, writeReg_ignored hw]

/-- Settles O12: a read of a mapped register is recorded, and an unmapped number is refused. -/
theorem hostReadGivesTheValue : Obligations.HostReadGivesTheValue := by
  unfold Obligations.HostReadGivesTheValue
  intro s n v rest
  refine ⟨?mapped, rfl, fun hn => ⟨fun hp => ?read, fun hp => ?write⟩⟩
  case mapped =>
    rintro r rfl hp
    exact (step_cons hp).trans (perform_read r _)
  case read => rw [step_cons hp, perform_read_unmapped (regAt_eq_none hn)]
  case write => rw [step_cons hp, perform_write_unmapped (regAt_eq_none hn)]

/-- A word that decodes is issued as its command (R68, R80). -/
theorem issueCommand_of_decode_ok {w : Word} {i : Instr} (h : decode w = .ok i) (s : State) :
    issueCommand w s = exec i s := by
  rw [issueCommand, h]

/-- The step over a host's write of a word to `CMD` issues the word on the state without that write (R68). -/
theorem step_cmd {s : State} {w : Word} {rest : List HostEvent}
    (h : s.pending = .wr 0 w.toNat :: rest) :
    step s = issueCommand w { s with pending := rest } := by
  rw [step_cons h, perform_cmd]

/-- The step from a state with a word put at the head of its queue issues the word on the state itself (log 1). -/
theorem step_withFetchWord (s : State) (w : Word) :
    step (s.withFetchWord 32 w.toNat) = issueCommand w s := by
  have hp : (s.withFetchWord 32 w.toNat).pending = .wr 0 w.toNat :: s.pending := by
    rw [State.withFetchWord, Nat.mod_eq_of_lt w.isLt]
    rfl
  exact step_cmd hp

/-- Settles O6: either way the step issues the word, which is its command. -/
theorem stepRunsTheDecodedCommand : Obligations.StepRunsTheDecodedCommand := by
  unfold Obligations.StepRunsTheDecodedCommand
  intro s w i rest hd
  exact ⟨fun hp => (step_cmd hp).trans (issueCommand_of_decode_ok hd _),
    (step_withFetchWord s w).trans (issueCommand_of_decode_ok hd s)⟩

end Sys2Proof.Machine
end

section
/-! SUPPORT. The command word as a code (R80 to R89, R100): the words that decode are exactly the words of well-formed
commands, and they are the words that a row of the opcode map admits. -/

namespace Sys2Proof

open Sys2Proof.Machine

/-! ### The formats

For each format: no reserved bit is set and the operands are the word's fields exactly when the operands fit their
fields and make up the word's low 24 bits (R81, R88). Format N is `reserved_n`. -/

/-- Format K (R86). -/
theorem messageField_iff {v k : Nat} :
    v &&& reservedMask .k = 0 ∧ k = messageField v ↔ k ≤ 7 ∧ k = v % 2 ^ 24 := by
  rw [reserved_k]
  simp only [messageField, bits]
  omega

/-- Format L (R85). -/
theorem lengthField_iff {v l : Nat} :
    v &&& reservedMask .l = 0 ∧ l = lengthField v ↔ l ≤ 127 ∧ l = v % 2 ^ 24 := by
  rw [reserved_l]
  simp only [lengthField, bits]
  omega

/-- Format D (R87). -/
theorem descriptorField_iff {v d : Nat} :
    v &&& reservedMask .d = 0 ∧ d = descriptorField v ↔ d ≤ 255 ∧ d = v % 2 ^ 24 := by
  rw [reserved_d]
  simp only [descriptorField, bits]
  omega

/-- Format B (R84). -/
theorem fieldOperand_iff {v y b l : Nat} :
    v &&& reservedMask .b = 0 ∧ y = byteIndexField v ∧ b = bitIndexField v ∧ l = lengthField v ↔
      (y ≤ 255 ∧ b ≤ 7 ∧ l ≤ 127) ∧ fieldOperand y b l = v % 2 ^ 24 := by
  rw [reserved_b]
  simp only [byteIndexField, bitIndexField, lengthField, bits]
  constructor
  · intro h
    rw [fieldOperand_eq (by omega) (by omega)]
    omega
  · rintro ⟨hfit, h⟩
    rw [fieldOperand_eq (by omega) (by omega)] at h
    omega

/-- A row of the opcode map reads a command from a word exactly when the command's operands fit and are the word's low
24 bits (R80, R88). -/
theorem exists_row_iff (i : Instr) (v : Nat) :
    (∃ row ∈ opRows, row.opcode = i.opcode ∧ v &&& reservedMask row.format = 0 ∧ i = row.build v) ↔
      i.WellFormed ∧ i.operand = v % 2 ^ 24 := by
  cases i with
  | nop | clrfb | lkidx | lkent | enc | dec =>
    simpa [opRows, Instr.opcode, Instr.operand, Instr.WellFormed, Instr.wellFormed, eq_comm] using reserved_n v
  | movmf k | movfm k =>
    simpa [opRows, Instr.opcode, Instr.operand, Instr.WellFormed, Instr.wellFormed] using messageField_iff
  | xbits y b l | pbits y b l =>
    simpa [opRows, Instr.opcode, Instr.operand, Instr.WellFormed, Instr.wellFormed, and_assoc] using fieldOperand_iff
  | sext l =>
    simpa [opRows, Instr.opcode, Instr.operand, Instr.WellFormed, Instr.wellFormed] using lengthField_iff
  | xsig d | sigloc d | phys d =>
    simpa [opRows, Instr.opcode, Instr.operand, Instr.WellFormed, Instr.wellFormed] using descriptorField_iff

/-! ### Decoding and encoding -/

/-- A row of the opcode map makes commands of one kind, with its opcode (R82). -/
theorem build_kind {row : OpRow} (h : row ∈ opRows) (v : Nat) :
    (row.build v).opcode = row.opcode ∧ (row.build v).mnemonic = (row.build 0).mnemonic := by
  simp only [opRows, List.mem_cons, List.not_mem_nil, or_false] at h
  rcases h with rfl | rfl | rfl | rfl | rfl | rfl | rfl | rfl | rfl | rfl | rfl | rfl | rfl | rfl <;>
    exact ⟨rfl, rfl⟩

/-- A word decodes to the well-formed command whose opcode and operand bits it holds (R80, R100). -/
theorem decode_ok_iff_fields {w : Word} {i : Instr} :
    decode w = .ok i ↔
      i.WellFormed ∧ i.opcode = w.toNat / 2 ^ 24 ∧ i.operand = w.toNat % 2 ^ 24 := by
  rw [decode_ok, and_left_comm, ← exists_row_iff]
  constructor
  · rintro ⟨row, hmem, hop, hz, rfl⟩
    have hop' := (build_kind hmem w.toNat).1
    exact ⟨hop'.trans hop, row, hmem, hop'.symm, hz, rfl⟩
  · rintro ⟨hop, row, hmem, hop', hz, hi⟩
    exact ⟨row, hmem, hop'.trans hop, hz, hi⟩

/-- The word of every well-formed command has its opcode above its operand bits (R100). -/
theorem encode_fields (i : Instr) : Laws.EncodeShape.Statement i :=
  match i with
  | .nop => Laws.EncodeShape.nop
  | .clrfb => Laws.EncodeShape.clrfb
  | .movmf k => Laws.EncodeShape.movmf k
  | .movfm k => Laws.EncodeShape.movfm k
  | .xbits y b l => Laws.EncodeShape.xbits y b l
  | .pbits y b l => Laws.EncodeShape.pbits y b l
  | .sext l => Laws.EncodeShape.sext l
  | .lkidx => Laws.EncodeShape.lkidx
  | .lkent => Laws.EncodeShape.lkent
  | .enc => Laws.EncodeShape.enc
  | .dec => Laws.EncodeShape.dec
  | .xsig d => Laws.EncodeShape.xsig d
  | .sigloc d => Laws.EncodeShape.sigloc d
  | .phys d => Laws.EncodeShape.phys d

/-- Decoding and encoding are inverse to each other between the legal words and the well-formed commands. -/
theorem decode_ok_iff {w : Word} {i : Instr} :
    decode w = .ok i ↔ i.WellFormed ∧ encode i = w := by
  rw [decode_ok_iff_fields, and_congr_right_iff]
  intro hi
  obtain ⟨hop, harg⟩ := encode_fields i hi
  rw [← hop, ← harg, ← BitVec.toNat_inj]
  omega

/-- Settles O2: the word of a well-formed command is one that decodes to it. -/
theorem decodeEncodeAgree : Obligations.DecodeEncodeAgree := by
  unfold Obligations.DecodeEncodeAgree
  exact fun i hi => decode_ok_iff.mpr ⟨hi, rfl⟩

/-- Settles O3: the same equivalence, read from the word. -/
theorem encodeDecodeAgree : Obligations.EncodeDecodeAgree := by
  unfold Obligations.EncodeDecodeAgree
  exact fun w i h => decode_ok_iff.mp h

/-- Settles O1: each word is the encoding of its command. -/
theorem specWordsDecode : Obligations.SpecWordsDecode := by
  unfold Obligations.SpecWordsDecode
  simp only [decode_ok_iff]
  decide

/-! ### Legal and illegal words -/

/-- The reserved bits of R89 are those of the opcode map's formats. -/
theorem reservedOf_eq :
    reservedOf = opRows.map fun row => (row.opcode, reservedMask row.format) := by decide

/-- A word decodes exactly when its opcode is one of the fourteen and none of its reserved bits is set (R89). -/
theorem decodes_iff (w : Word) :
    (∃ i, decode w = .ok i) ↔
      ∃ row ∈ reservedOf, w.toNat / 2 ^ 24 = row.1 ∧ w.toNat &&& row.2 = 0 := by
  simp only [reservedOf_eq, List.mem_map, exists_exists_and_eq_and, decode_ok]
  constructor
  · rintro ⟨i, row, hmem, hop, hz, -⟩
    exact ⟨row, hmem, hop.symm, hz⟩
  · rintro ⟨row, hmem, hop, hz⟩
    exact ⟨_, row, hmem, hop.symm, hz, rfl⟩

/-- A word that is illegal by R89 raises `IllegalCommand` (R80). -/
theorem issueCommand_of_illegal {w : Word}
    (h : ∀ row ∈ reservedOf, w.toNat / 2 ^ 24 = row.1 → w.toNat &&& row.2 ≠ 0) (s : State) :
    issueCommand w s = .next (raise .illegalCommand s) := by
  obtain ⟨i, hd, -⟩ | ⟨-, hraise⟩ := issueCommand_cases w s
  · obtain ⟨row, hmem, hop, hz⟩ := (decodes_iff w).mp ⟨i, hd⟩
    exact absurd hz (h row hmem hop)
  · exact hraise

/-- Settles O4: the legal words decode, and the others raise the error. -/
theorem illegalWordsExactly : Obligations.IllegalWordsExactly := by
  unfold Obligations.IllegalWordsExactly
  refine fun w s => ⟨fun hlegal => ?_, fun hillegal => issueCommand_of_illegal hillegal s⟩
  obtain ⟨i, hd⟩ := (decodes_iff w).mpr hlegal
  exact ⟨i, hd, issueCommand_of_decode_ok hd s⟩

/-- Settles O7: either way the step issues the illegal word. -/
theorem illegalWordStepRaisesIllegalCommand : Obligations.IllegalWordStepRaisesIllegalCommand := by
  unfold Obligations.IllegalWordStepRaisesIllegalCommand
  intro s w rest h
  exact ⟨fun hp => (step_cmd hp).trans (issueCommand_of_illegal h _),
    (step_withFetchWord s w).trans (issueCommand_of_illegal h s)⟩

/-! ### The opcode table -/

/-- The opcode table is the opcode map: the mask holds the opcode bits and the reserved bits, the match the opcode
(R104). -/
theorem tableRows_eq :
    tableRows = opRows.map fun row =>
      ((row.build 0).mnemonic, BitVec.ofNat 32 (0xFF000000 ||| reservedMask row.format),
        BitVec.ofNat 32 (row.opcode <<< 24)) := by decide

/-- No two rows of the opcode map make commands of one mnemonic (R82). -/
theorem opRows_mnemonics_differ : (opRows.map fun row => (row.build 0).mnemonic).Nodup := by decide

/-- Opcodes and reserved bits have their places in the 32-bit word (R80, R81). -/
theorem opRows_bounds : ∀ row ∈ opRows, row.opcode < 2 ^ 8 ∧ reservedMask row.format < 2 ^ 24 := by
  decide

/-- The masked bits of a word equal the match when its opcode is the row's and no reserved bit is set (R104). -/
theorem masked_eq_match_iff {op r : Nat} (hop : op < 2 ^ 8) (hr : r < 2 ^ 24) (w : Word) :
    w &&& BitVec.ofNat 32 (0xFF000000 ||| r) = BitVec.ofNat 32 (op <<< 24) ↔
      op = w.toNat / 2 ^ 24 ∧ w.toNat &&& r = 0 := by
  have hw := w.isLt
  have hmask : 0xFF000000 ||| r < 2 ^ 32 := Nat.or_lt_two_pow (by decide) (by omega)
  have hlow : w.toNat &&& r < 2 ^ 24 := Nat.and_lt_two_pow _ hr
  have hhigh : w.toNat &&& 0xFF000000 = (w.toNat / 2 ^ 24 % 2 ^ 8) <<< 24 := and_run w.toNat 8 24
  rw [← BitVec.toNat_inj, BitVec.toNat_and, BitVec.toNat_ofNat, BitVec.toNat_ofNat,
    Nat.mod_eq_of_lt hmask, Nat.and_or_distrib_left, hhigh, ← Nat.shiftLeft_add_eq_or_of_lt hlow]
  simp only [Nat.shiftLeft_eq]
  omega

/-- Settles O5: a row's word decodes by that row, and a word with the row's mnemonic is decoded by no other. -/
theorem tableRowsSelectTheirCommand : Obligations.TableRowsSelectTheirCommand := by
  unfold Obligations.TableRowsSelectTheirCommand
  simp only [tableRows_eq, List.forall_mem_map]
  intro row hmem w
  obtain ⟨hop, hr⟩ := opRows_bounds row hmem
  rw [masked_eq_match_iff hop hr]
  constructor
  · rintro ⟨hop, hz⟩
    exact ⟨_, decode_ok.mpr ⟨row, hmem, hop, hz, rfl⟩, (build_kind hmem _).2⟩
  · rintro ⟨i, hd, hname⟩
    obtain ⟨row', hmem', hop', hz, rfl⟩ := decode_ok.mp hd
    have hname' := (build_kind hmem' w.toNat).2.symm.trans hname
    obtain rfl := List.inj_on_of_nodup_map opRows_mnemonics_differ hmem' hmem hname'
    exact ⟨hop', hz⟩

end Sys2Proof
end

section
/-! SUPPORT. The extractor's addressing and the wire layout of a message (R93), and the bytes of a little-endian value
(R61). -/

namespace Sys2Proof.Machine

/-- A field inside an eight-byte message is the range of the same bits of its 64-bit value (R62, R63, R110). -/
theorem extractBits_message (m : Vector Byte 8) {y b l : Nat} (hend : 8 * y + b + l ≤ 8 * 8)
    (hpos : 1 ≤ l) (hmax : l ≤ 64) :
    extractBits m 8 y b l = .ok (bits (memRead m 0 8) (8 * y + b + l - 1) (8 * y + b)) := by
  have hcheck : checkField 8 ⟨y, b, l⟩ = .ok ⟨y, b, l⟩ := checkField_ok.mpr ⟨rfl, hend, hpos, hmax⟩
  rw [extractBits_eq, hcheck, Except.map]
  congr 1
  apply Nat.eq_of_testBit_eq
  intro i
  rw [fieldValue_testBit, bits_testBit, memRead_testBit]
  have hwidth : i < 8 * y + b + l - 1 - (8 * y + b) + 1 ↔ i < l := by omega
  by_cases hi : i < l
  · have hin : 8 * y + b + i < 8 * 8 := by omega
    simp [hi, hwidth, hin]
  · simp [hi, hwidth]

/-- Settles O43: each place of the layout table is a field of a message. -/
theorem extractorReadsTheLayout : Obligations.ExtractorReadsTheLayout := by
  unfold Obligations.ExtractorReadsTheLayout
  intro m
  refine ⟨?_, ?_, ?_, ?_, ?_, ?_, ?_, ?_, ?_⟩ <;>
    exact extractBits_message m (by decide) (by decide) (by decide)

/-- Byte `i` of a little-endian value is byte `i` of the sequence (R61). -/
theorem bits_leValue (l : List Byte) (i : Nat) :
    bits (leValue l) (8 * i + 7) (8 * i) = (l.getD i 0).toNat := by
  apply Nat.eq_of_testBit_eq
  intro j
  rw [bits_testBit, leValue_testBit, BitVec.testBit_toNat]
  have hwidth : j < 8 * i + 7 - 8 * i + 1 ↔ j < 8 := by omega
  by_cases hj : j < 8
  · have hdiv : (8 * i + j) / 8 = i := by omega
    have hmod : (8 * i + j) % 8 = j := by omega
    simp only [hwidth, hj, hdiv, hmod, decide_true, Bool.true_and]
  · simp [hj, BitVec.getLsbD_of_ge _ j (Nat.le_of_not_lt hj)]

/-- Settles O57: the key is the little-endian value of the characters' bytes. -/
theorem nameKeyHoldsTheCharacters : Obligations.NameKeyHoldsTheCharacters := by
  unfold Obligations.NameKeyHoldsTheCharacters
  intro text hpos hlen hascii
  refine ⟨_, if_pos ⟨hpos, hlen, by simpa using hascii⟩, ?bound, fun i _ => ?byte⟩
  case bound =>
    refine (leValue_lt _).trans_le (Nat.pow_le_pow_right (by decide) ?_)
    rw [List.length_map]
    omega
  case byte =>
    rw [bits_leValue, List.getD_eq_getElem?_getD, List.getElem?_map]
    cases hc : text[i]? with
    | none => rfl
    | some c =>
      have hlt := hascii c (List.mem_of_getElem? hc)
      exact Nat.mod_eq_of_lt (by omega)

end Sys2Proof.Machine
end

section
/-! SUPPORT. The assembler's lines as lists of writes (R100, R101, R103): when a write is accepted, and that an
accepted one is a transaction that the CFP performs. -/

namespace Sys2Proof.Machine

/-! ### Accepted writes -/

section
variable {r : Reg} {n v : Nat} {e : HostEvent} {es : List HostEvent}

/-- A write is accepted exactly when its value fits the register (R101). -/
theorem asmWrite_eq_some :
    asmWrite r v = some e ↔ v < 2 ^ r.width ∧ .wr r.number v = e := by
  simp [asmWrite]

theorem asmWrite_of_fits (hv : v < 2 ^ r.width) : asmWrite r v = some (.wr r.number v) :=
  if_pos hv

/-- A write by number is the write of the register that has the number (R22). -/
theorem asmWriteAt_number (r : Reg) (v : Nat) : asmWriteAt r.number v = asmWrite r v := by
  rw [asmWriteAt, regAt_number]

/-- The events of a list are accepted together or not at all (R101). -/
theorem allOrNone_eq_some {l : List (Option HostEvent)} :
    allOrNone l = some es ↔ l = es.map some := by
  induction l generalizing es with
  | nil => cases es <;> simp [allOrNone]
  | cons o rest ih =>
    cases o with
    | none => cases es <;> simp [allOrNone]
    | some e =>
      cases es with
      | nil => cases h : allOrNone rest <;> simp [allOrNone, h]
      | cons e' es' => cases h : allOrNone rest <;> simp [allOrNone, h, ← ih]

/-- A write by number is accepted exactly when the number is a register's that the value fits. -/
theorem asmWriteAt_eq_some :
    asmWriteAt n v = some e ↔ ∃ r, regAt n = some r ∧ asmWrite r v = some e := by
  cases h : regAt n <;> simp [asmWriteAt, h]

end

/-! ### Accepted lines are performed -/

/-- A host transaction that names a register, and if it writes, a value that fits it (R67, R69). -/
inductive HostEvent.Fits : HostEvent → Prop where
  | rd (r : Reg) : Fits (.rd r.number)
  | wr (r : Reg) (v : Nat) (hv : v < 2 ^ r.width) : Fits (.wr r.number v)

/-- A write to `CMD` that fits issues its value as a word (R68). -/
theorem perform_wr_cmd {v : Nat} (hv : v < 2 ^ Reg.cmd.width) (s : State) :
    perform (.wr Reg.cmd.number v) s = issueCommand (BitVec.ofNat 32 v) s := by
  have hword : (BitVec.ofNat 32 v).toNat = v := (BitVec.toNat_ofNat v 32).trans (Nat.mod_eq_of_lt hv)
  rw [← perform_cmd, hword]
  rfl

/-- A transaction that fits is never refused: it is a read, a command write, or a register write. -/
theorem perform_isNext {e : HostEvent} (h : e.Fits) (s : State) : ∃ t, perform e s = .next t := by
  cases h with
  | rd r => exact ⟨_, perform_read r s⟩
  | wr r v hv =>
    by_cases hr : r = .cmd
    · subst hr
      obtain ⟨f, hf⟩ := issueCommand_effect (BitVec.ofNat 32 v)
      exact ⟨_, (perform_wr_cmd hv s).trans (hf s)⟩
    · exact ⟨_, perform_write hv hr⟩

section
variable {l : List (Option HostEvent)} {es : List HostEvent}

theorem asmWrite_fits {r : Reg} {v : Nat} {e : HostEvent} (h : asmWrite r v = some e) : e.Fits := by
  obtain ⟨hv, rfl⟩ := asmWrite_eq_some.mp h
  exact .wr r v hv

theorem asmWriteAt_fits {n v : Nat} {e : HostEvent} (h : asmWriteAt n v = some e) : e.Fits := by
  obtain ⟨r, -, hw⟩ := asmWriteAt_eq_some.mp h
  exact asmWrite_fits hw

theorem asmBytes_fits {base : Nat} {bytes : List Nat} :
    ∀ o ∈ asmBytes base bytes, ∀ e ∈ o, e.Fits := by
  unfold asmBytes
  rw [List.forall_mem_map]
  exact fun _ _ _ h => asmWriteAt_fits h

/-- Writes that fit one by one make a line whose transactions fit. -/
theorem allOrNone_fits (hl : ∀ o ∈ l, ∀ e ∈ o, e.Fits) (h : allOrNone l = some es) :
    ∀ e ∈ es, e.Fits := by
  rw [allOrNone_eq_some.mp h, List.forall_mem_map] at hl
  exact fun e he => hl e he e rfl

theorem allOrNone_asmWrite_fits {r : Reg} {v : Nat} (h : allOrNone [asmWrite r v] = some es) :
    ∀ e ∈ es, e.Fits :=
  allOrNone_fits (by simpa using fun _ => asmWrite_fits) h

/-- The transactions of every line the assembler accepts fit (R101). -/
theorem assembleLine_fits {line : AsmLine} (h : assembleLine line = some es) :
    ∀ e ∈ es, e.Fits := by
  unfold assembleLine at h
  cases line with
  | rd r =>
    cases h
    simpa using HostEvent.Fits.rd r
  | wr r v | cmd w | setlen n | clrst => exact allOrNone_asmWrite_fits h
  | command i =>
    obtain ⟨-, h⟩ := Option.ite_none_right_eq_some.mp h
    exact allOrNone_asmWrite_fits h
  | name text =>
    dsimp only at h
    split at h
    · exact allOrNone_asmWrite_fits h
    · cases h
  | ldfb bytes =>
    obtain ⟨-, h⟩ := Option.ite_none_right_eq_some.mp h
    refine allOrNone_fits (List.forall_mem_append.mpr ⟨asmBytes_fits, ?_⟩) h
    simpa using fun _ => asmWrite_fits
  | ldmsg k bytes =>
    obtain ⟨-, h⟩ := Option.ite_none_right_eq_some.mp h
    exact allOrNone_fits asmBytes_fits h
  | adl i spn fmi =>
    obtain ⟨-, h⟩ := Option.ite_none_right_eq_some.mp h
    refine allOrNone_fits ?_ h
    simpa using ⟨fun _ => asmWriteAt_fits, fun _ => asmWriteAt_fits, fun _ => asmWriteAt_fits⟩

end

/-- Settles O54: an accepted line is made of transactions that fit, and those are performed. -/
theorem assembledLinesAreNotRefused : Obligations.AssembledLinesAreNotRefused := by
  unfold Obligations.AssembledLinesAreNotRefused
  exact fun _ _ h e he s => perform_isNext (assembleLine_fits h e he) s

/-! ### The lines of commands and of the pseudo-instructions -/

/-- A line of one write that fits is that write (R100). -/
theorem allOrNone_asmWrite {r : Reg} {v : Nat} (hv : v < 2 ^ r.width) :
    allOrNone [asmWrite r v] = some [.wr r.number v] := by
  rw [asmWrite_of_fits hv]
  rfl

/-- Settles O55: the word of a well-formed command fits `CMD` and decodes to the command. -/
theorem assembledCommandRuns : Obligations.AssembledCommandRuns := by
  unfold Obligations.AssembledCommandRuns
  refine fun i => ⟨fun hi => ⟨?line, fun s rest hp => ?step⟩, fun hi => if_neg hi⟩
  case line => exact (if_pos hi).trans (allOrNone_asmWrite (r := .cmd) (encode i).isLt)
  case step =>
    have hd : decode (encode i) = .ok i := decode_ok_iff.mpr ⟨hi, rfl⟩
    exact (step_cmd hp).trans (issueCommand_of_decode_ok hd _)

/-- Bytes written to numbers that are all registers of eight bits are accepted (R101). -/
theorem asmBytes_eq {base : Nat} {bytes : List Nat} (hv : ∀ v ∈ bytes, v < 2 ^ 8)
    (hreg : ∀ j < bytes.length, ∃ r : Reg, r.number = base + j ∧ r.width = 8) :
    asmBytes base bytes = (bytes.zipIdx.map fun (v, j) => .wr (base + j) v).map some := by
  rw [asmBytes, List.map_map]
  apply List.map_congr_left
  rintro ⟨v, j⟩ hmem
  obtain ⟨-, hj, hvj⟩ := List.mem_zipIdx hmem
  obtain ⟨r, hnum, hwidth⟩ := hreg j (by simpa using hj)
  have hfit : v < 2 ^ r.width := by
    rw [hwidth, hvj]
    exact hv _ (List.getElem_mem _)
  change asmWriteAt (base + j) v = some (.wr (base + j) v)
  rw [← hnum, asmWriteAt_number, asmWrite_of_fits hfit]

theorem assembleLine_ldfb {bytes : List Nat} (hlen : bytes.length ≤ Config.bufCap)
    (hv : ∀ v ∈ bytes, v < 2 ^ 8) :
    assembleLine (.ldfb bytes) =
      some ((bytes.zipIdx.map fun (v, i) => .wr (0x40 + i) v) ++ [.wr 3 bytes.length]) := by
  have hbytes := asmBytes_eq (base := 0x40) hv fun j hj => ⟨.fb ⟨j, by omega⟩, rfl, rfl⟩
  have hcap : bytes.length < 2 ^ Reg.flen.width := hlen.trans_lt (by decide)
  rw [assembleLine, if_pos hlen, allOrNone_eq_some, hbytes, asmWrite_of_fits hcap, List.map_append]
  rfl

theorem assembleLine_ldmsg {k : Nat} {bytes : List Nat} (hk : k < 5) (hlen : bytes.length = 8)
    (hv : ∀ v ∈ bytes, v < 2 ^ 8) :
    assembleLine (.ldmsg k bytes) =
      some (bytes.zipIdx.map fun (v, i) => .wr (0x80 + 8 * k + i) v) := by
  rw [assembleLine, if_pos ⟨hk, hlen⟩, allOrNone_eq_some]
  exact asmBytes_eq hv fun j hj => ⟨.msg ⟨k, hk⟩ ⟨j, by omega⟩, rfl, rfl⟩

theorem assembleLine_adl {i spn fmi : Nat} (hi : i < 20) (hspn : spn < 2 ^ 32) (hfmi : fmi < 2 ^ 8) :
    assembleLine (.adl i spn fmi) =
      some [.wr (0x100 + 4 * i) spn, .wr (0x101 + 4 * i) fmi, .wr (0x102 + 4 * i) 0] := by
  have h1 : asmWriteAt (0x100 + 4 * i) spn = some (.wr (0x100 + 4 * i) spn) :=
    (asmWriteAt_number (.adlSpn ⟨i, hi⟩) spn).trans (asmWrite_of_fits hspn)
  have h2 : asmWriteAt (0x101 + 4 * i) fmi = some (.wr (0x101 + 4 * i) fmi) :=
    (asmWriteAt_number (.adlFmi ⟨i, hi⟩) fmi).trans (asmWrite_of_fits hfmi)
  have h3 : asmWriteAt (0x102 + 4 * i) 0 = some (.wr (0x102 + 4 * i) 0) :=
    (asmWriteAt_number (.adlOcc ⟨i, hi⟩) 0).trans (asmWrite_of_fits (Nat.two_pow_pos _))
  rw [assembleLine, if_pos hi, h1, h2, h3]
  rfl

theorem assembleLine_name {text : List Char} {key : Nat} (h : nameKey text = some key)
    (hkey : key < 2 ^ 64) : assembleLine (.name text) = some [.wr 0x15 key] := by
  simp only [assembleLine, h]
  exact allOrNone_asmWrite (r := .name) hkey

/-- Settles O56: the expansion of each pseudo-instruction. -/
theorem pseudoInstructionsExpand : Obligations.PseudoInstructionsExpand := by
  unfold Obligations.PseudoInstructionsExpand
  exact ⟨fun _ hw => allOrNone_asmWrite (r := .cmd) hw,
    fun _ hn => allOrNone_asmWrite (r := .flen) hn,
    fun _ hlen hv => assembleLine_ldfb hlen hv,
    fun _ _ hk hlen hv => assembleLine_ldmsg hk hlen hv,
    fun _ _ _ hi hspn hfmi => assembleLine_adl hi hspn hfmi,
    fun _ _ hkey hlt => assembleLine_name hkey hlt,
    allOrNone_asmWrite (r := .cmd) (encode .nop).isLt⟩

end Sys2Proof.Machine
end

section
/-! SUPPORT. The bit-field extractor (spec/41_bfx.md): when `extractBits` and `packBits` succeed and with what, how a
pack is seen by an extract, and the three commands over them. -/

namespace Sys2Proof.Machine

/-! ### The two functions by their results -/

section
variable {len total y b l v : Nat} {buf buf' : Vector Byte len}

/-- A function of a field that makes the two checks first succeeds exactly on the fields that pass them (R110). -/
theorem checkField_map_ok {α : Type} {x a : α} :
    (checkField total ⟨y, b, l⟩).map (fun _ => x) = .ok a ↔
      (8 * y + b + l ≤ 8 * total ∧ 1 ≤ l ∧ l ≤ 64) ∧ x = a := by
  cases hc : checkField total ⟨y, b, l⟩ with
  | ok f =>
    obtain ⟨-, hfit⟩ := checkField_ok.mp hc
    simp [Except.map, hfit]
  | error e =>
    have hfail : ¬ (8 * y + b + l ≤ 8 * total ∧ 1 ≤ l ∧ l ≤ 64) := fun hfit =>
      nomatch hc.symm.trans (checkField_ok.mpr ⟨rfl, hfit⟩)
    simp [Except.map, hfail]

theorem extractBits_ok {r : Nat} :
    extractBits buf total y b l = .ok r ↔
      (8 * y + b + l ≤ 8 * total ∧ 1 ≤ l ∧ l ≤ 64) ∧
        memRead buf y (numBytes b l) >>> b &&& mask l = r := by
  rw [extractBits_eq, checkField_map_ok]

theorem packBits_ok :
    packBits buf total y b l v = .ok buf' ↔
      (8 * y + b + l ≤ 8 * total ∧ 1 ≤ l ∧ l ≤ 64) ∧
        memOr buf y (numBytes b l) ((v &&& mask l) <<< b) = buf' := by
  rw [packBits_eq, checkField_map_ok]

theorem extractBits_outOfRange (h : 8 * total < 8 * y + b + l) :
    extractBits buf total y b l = .error .outOfRange := by
  rw [extractBits_eq, checkField_outOfRange h, Except.map]

theorem extractBits_invalidLength (h : 8 * y + b + l ≤ 8 * total) (hl : l = 0 ∨ 64 < l) :
    extractBits buf total y b l = .error .invalidLength := by
  rw [extractBits_eq, checkField_invalidLength h hl, Except.map]

theorem packBits_outOfRange (h : 8 * total < 8 * y + b + l) :
    packBits buf total y b l v = .error .outOfRange := by
  rw [packBits_eq, checkField_outOfRange h, Except.map]

theorem packBits_invalidLength (h : 8 * y + b + l ≤ 8 * total) (hl : l = 0 ∨ 64 < l) :
    packBits buf total y b l v = .error .invalidLength := by
  rw [packBits_eq, checkField_invalidLength h hl, Except.map]

/-- `extractBits` depends on the bits of its field alone, and on those only when the field is inside the telegram
(R111). -/
theorem extractBits_congr
    (h : 8 * y + b + l ≤ 8 * total → ∀ i < l, bufBit buf (8 * y + b + i) = bufBit buf' (8 * y + b + i)) :
    extractBits buf total y b l = extractBits buf' total y b l := by
  rw [extractBits_eq, extractBits_eq]
  cases hc : checkField total ⟨y, b, l⟩ with
  | error e => rfl
  | ok f =>
    obtain ⟨-, hend, -⟩ := checkField_ok.mp hc
    rw [Except.map, Except.map]
    congr 1
    apply Nat.eq_of_testBit_eq
    intro i
    rw [fieldValue_testBit, fieldValue_testBit]
    by_cases hi : i < l
    · rw [h hend i hi]
    · simp [hi]

/-- What the extractor's formula reads from a packed field (R117 b). -/
theorem fieldValue_packed (hend : 8 * y + b + l ≤ 8 * len) :
    memRead (memOr buf y (numBytes b l) ((v &&& mask l) <<< b)) y (numBytes b l) >>> b &&& mask l =
      (memRead buf y (numBytes b l) >>> b &&& mask l) ||| (v &&& mask l) := by
  apply Nat.eq_of_testBit_eq
  intro i
  rw [Nat.testBit_or, fieldValue_testBit, fieldValue_testBit, Nat.testBit_and, mask_testBit]
  by_cases hi : i < l
  · rw [packed_bufBit _ _ _ _ _ _ (by omega)]
    simp [hi]
  · simp [hi]

/-- Every field of a zero buffer is 0. -/
theorem fieldValue_zero (len y b l : Nat) :
    memRead (Vector.replicate len (0 : Byte)) y (numBytes b l) >>> b &&& mask l = 0 := by
  apply Nat.eq_of_testBit_eq
  intro i
  rw [fieldValue_testBit, zero_bufBit, Bool.and_false, Nat.zero_testBit]

/-- `MemOr` keeps every byte outside the bytes it names (R14). -/
theorem memOr_getElem_outside (buf : Vector Byte len) {i n p : Nat} (v : Nat) (hp : p < len)
    (h : p < i ∨ i + n ≤ p) : (memOr buf i n v)[p] = buf[p] := by
  have hout : ¬ (i ≤ p ∧ p < i + n) := by omega
  simp [memOr, hout]

end

/-- Settles O29: the two checks, then the bits of the formula. -/
theorem extractBitsIsTheField : Obligations.ExtractBitsIsTheField := by
  unfold Obligations.ExtractBitsIsTheField
  intro len buf total y b l _
  refine ⟨extractBits_outOfRange, extractBits_invalidLength, fun hend hpos hmax => ?_⟩
  refine ⟨_, extractBits_ok.mpr ⟨⟨hend, hpos, hmax⟩, rfl⟩, fieldValue_lt buf y b l, fun i hi => ?_⟩
  rw [fieldValue_testBit, decide_eq_true hi, Bool.true_and]

/-- Settles O30: a field that passes the range check lies in the first `total` bytes. -/
theorem extractBitsReadsOnlyTheTelegram : Obligations.ExtractBitsReadsOnlyTheTelegram := by
  unfold Obligations.ExtractBitsReadsOnlyTheTelegram
  intro len buf buf' total y b l _ hagree
  exact extractBits_congr fun hend i hi => hagree _ (by omega)

/-- Settles O31: the two checks, then the bits of the formula. -/
theorem packBitsOrsTheField : Obligations.PackBitsOrsTheField := by
  unfold Obligations.PackBitsOrsTheField
  intro len buf total y b l v _
  refine ⟨packBits_outOfRange, packBits_invalidLength, fun hend hpos hmax => ?_⟩
  exact ⟨_, packBits_ok.mpr ⟨⟨hend, hpos, hmax⟩, rfl⟩, packed_bufBit buf y b l v⟩

/-- Settles O32: the extract passes the checks that the pack passed, and reads the packed field. -/
theorem extractAfterPack : Obligations.ExtractAfterPack := by
  unfold Obligations.ExtractAfterPack
  intro len buf buf' total y b l v htotal hpack
  obtain ⟨hfit, rfl⟩ := packBits_ok.mp hpack
  have hend : 8 * y + b + l ≤ 8 * len := by omega
  refine ⟨⟨_, extractBits_ok.mpr ⟨hfit, rfl⟩, extractBits_ok.mpr ⟨hfit, fieldValue_packed hend⟩⟩, ?_⟩
  rintro rfl hv
  refine extractBits_ok.mpr ⟨hfit, ?_⟩
  rw [fieldValue_packed hend, fieldValue_zero, Nat.zero_or, and_mask, Nat.mod_eq_of_lt hv]

/-- Settles O33: a bit of the disjoint field is no bit of the packed one. -/
theorem packKeepsDisjointFields : Obligations.PackKeepsDisjointFields := by
  unfold Obligations.PackKeepsDisjointFields
  intro len buf buf' total y b l v y' b' l' htotal hpack hdisjoint
  obtain ⟨-, rfl⟩ := packBits_ok.mp hpack
  refine extractBits_congr fun hend i hi => ?_
  have hout : ¬ (8 * y + b ≤ 8 * y' + b' + i ∧ 8 * y' + b' + i < 8 * y + b + l) := by omega
  rw [packed_bufBit _ _ _ _ _ _ (by omega), decide_eq_false hout, Bool.false_and, Bool.or_false]

/-! ### The words of the commands -/

/-- The word of a well-formed command is its opcode byte above its operand bits (R100). -/
theorem decode_of_eq_add {i : Instr} {n : Nat} (hi : i.WellFormed)
    (hn : n = i.opcode * 2 ^ 24 + i.operand) : decode (BitVec.ofNat 32 n) = .ok i := by
  obtain ⟨hop, harg⟩ := encode_fields i hi
  have hword : n = (encode i).toNat := by omega
  rw [hword, BitVec.ofNat_toNat, BitVec.setWidth_eq]
  exact decode_ok_iff.mpr ⟨hi, rfl⟩

/-- The operands that fit the fields of format B (R84, R101). -/
theorem fieldOperand_fits {y b l : Nat} (hy : y ≤ 255) (hb : b ≤ 7) (hl : l ≤ 127) :
    (decide (y ≤ 255) && decide (b ≤ 7) && decide (l ≤ 127)) = true := by
  simp [hy, hb, hl]

/-! ### The commands on the frame buffer -/

section
variable {s : State} {y b l : Nat}

theorem exec_xbits_ok {r : Nat} (h : extractBits s.fb s.flen.toNat y b l = .ok r) :
    exec (.xbits y b l) s = .next { s with res := BitVec.ofNat 64 r, status := .ok } := by
  rw [exec, execXbits, h, complete_ok]
  rfl

theorem exec_xbits_error {e : ErrorKind} (h : extractBits s.fb s.flen.toNat y b l = .error e) :
    exec (.xbits y b l) s = .next { s with status := .fatal e } := by
  rw [exec, execXbits, h, complete_error]
  rfl

theorem exec_pbits_ok {fb : Vector Byte Config.bufCap}
    (h : packBits s.fb s.flen.toNat y b l s.val.toNat = .ok fb) :
    exec (.pbits y b l) s = .next { s with fb := fb, status := .ok } := by
  rw [exec, execPbits, h, complete_ok]
  rfl

theorem exec_pbits_error {e : ErrorKind}
    (h : packBits s.fb s.flen.toNat y b l s.val.toNat = .error e) :
    exec (.pbits y b l) s = .next { s with status := .fatal e } := by
  rw [exec, execPbits, h, complete_error]
  rfl

end

/-- Settles O34: the errors and the result are those of `extractBits`, and `RES` has room for 64 bits. -/
theorem xbitsReadsTheField : Obligations.XbitsReadsTheField := by
  unfold Obligations.XbitsReadsTheField
  refine ⟨fun y b l hy hb hl => ?word, fun s y b l _ => ⟨fun hend hpos hmax => ?result,
    fun h => exec_xbits_error (extractBits_outOfRange h),
    fun h hl => exec_xbits_error (extractBits_invalidLength h hl)⟩⟩
  case word =>
    refine decode_of_eq_add (i := .xbits y b l) (fieldOperand_fits hy hb hl) ?_
    rw [Instr.opcode, Instr.operand, fieldOperand_eq (by omega) (by omega)]
    omega
  case result =>
    refine ⟨_, exec_xbits_ok (extractBits_ok.mpr ⟨⟨hend, hpos, hmax⟩, rfl⟩), fun i hi => ?_⟩
    rw [BitVec.getLsbD_ofNat, decide_eq_true hi, Bool.true_and, fieldValue_testBit]

/-- Settles O35: the errors and the buffer are those of `packBits`. -/
theorem pbitsOrsTheField : Obligations.PbitsOrsTheField := by
  unfold Obligations.PbitsOrsTheField
  refine ⟨fun y b l hy hb hl => ?word, fun s y b l _ => ⟨fun hend hpos hmax => ?result,
    fun h => exec_pbits_error (packBits_outOfRange h),
    fun h hl => exec_pbits_error (packBits_invalidLength h hl)⟩⟩
  case word =>
    refine decode_of_eq_add (i := .pbits y b l) (fieldOperand_fits hy hb hl) ?_
    rw [Instr.opcode, Instr.operand, fieldOperand_eq (by omega) (by omega)]
    omega
  case result =>
    refine ⟨_, exec_pbits_ok (packBits_ok.mpr ⟨⟨hend, hpos, hmax⟩, rfl⟩), fun g hg => ?_,
      fun i hi => memOr_getElem_outside _ _ i.isLt hi⟩
    rw [packed_bufBit _ _ _ _ _ _ hg, BitVec.testBit_toNat]

/-! ### Sign extension -/

/-- The field of one bit is 0 exactly when the bit is (R12). -/
theorem bits_single_eq_zero {v i : Nat} : bits v i i = 0 ↔ v.testBit i = false := by
  rw [Nat.testBit_eq_decide_div_mod_eq]
  simp only [bits, Nat.sub_self, decide_eq_false_iff_not]
  omega

/-- Sign extension keeps the low `n` bits and copies bit `n - 1` into every bit above them (R13). -/
theorem sext_testBit {N v n i : Nat} (hN : n ≤ N) (hi : i < N) :
    (sext N v n).testBit i = v.testBit (if i < n then i else n - 1) := by
  unfold sext
  split
  next hsign =>
    rw [bits_single_eq_zero] at hsign
    rw [Nat.testBit_mod_two_pow]
    by_cases hlow : i < n <;> simp [hlow, hsign]
  next hsign =>
    rw [bits_single_eq_zero, Bool.not_eq_false] at hsign
    have hpow : 2 ^ N = 2 ^ n * 2 ^ (N - n) := by rw [← Nat.pow_add, Nat.add_sub_cancel' hN]
    have hones : v % 2 ^ n + 2 ^ N - 2 ^ n = 2 ^ n * (2 ^ (N - n) - 1) + v % 2 ^ n := by
      have hle : 2 ^ n ≤ 2 ^ N := Nat.pow_le_pow_right (by decide) hN
      rw [Nat.mul_sub_one, ← hpow, Nat.add_sub_assoc hle, Nat.add_comm]
    rw [hones, Nat.testBit_two_pow_mul_add _ (Nat.mod_lt _ (Nat.two_pow_pos n)),
      Nat.testBit_mod_two_pow, Nat.testBit_two_pow_sub_one]
    by_cases hlow : i < n
    · simp [hlow]
    · have hin : i - n < N - n := by omega
      rw [if_neg hlow, if_neg hlow, decide_eq_true hin, hsign]

section
variable {s : State} {l : Nat}

theorem exec_sext_ok (hpos : 1 ≤ l) (hmax : l ≤ 64) :
    exec (.sext l) s =
      .next { s with res := BitVec.ofNat 64 (sext 64 s.res.toNat l), status := .ok } := by
  have hcheck : sextOperand l = .ok l := if_neg (by omega)
  rw [exec, execSext, hcheck, complete_ok]
  rfl

theorem exec_sext_error (hl : l = 0 ∨ 64 < l) :
    exec (.sext l) s = .next { s with status := .fatal .invalidLength } := by
  have hcheck : sextOperand l = .error .invalidLength := if_pos (by omega)
  rw [exec, execSext, hcheck, complete_error]
  rfl

end

/-- Settles O36: the bits of the sign extension at width 64. -/
theorem sextExtendsTheSign : Obligations.SextExtendsTheSign := by
  unfold Obligations.SextExtendsTheSign
  refine ⟨fun l hl => ?word, fun s l => ⟨fun hpos hmax => ?result, exec_sext_error⟩⟩
  case word =>
    refine decode_of_eq_add (i := .sext l) (decide_eq_true hl) ?_
    rw [Instr.opcode, Instr.operand]
    omega
  case result =>
    refine ⟨_, exec_sext_ok hpos hmax, fun i hi => ?_⟩
    rw [BitVec.getLsbD_ofNat, decide_eq_true hi, Bool.true_and, sext_testBit hmax hi,
      BitVec.testBit_toNat]

end Sys2Proof.Machine
end

section
/-! SUPPORT. The catalog commands (spec/42_catalog.md R132 to R134): what `LKIDX` and `LKENT` do in each case, and that
an index that is found survives its 16-bit register. -/

namespace Sys2Proof.Machine

section
variable {cat : List CatEntry} {spn : BitVec 32} {fmi : BitVec 8} {i : Nat}

/-- A found index has its entry (R134 b). -/
theorem lookupEntry_of_lookupIndex (h : lookupIndex cat spn fmi = some i) :
    lookupEntry cat i = .ok ⟨spn, fmi⟩ :=
  lookupEntry_ok.mpr (lookupIndex_some.mp h).1

/-- A pair that some index holds is found, there or before (R134 c). -/
theorem lookupIndex_le_of_lookupEntry (h : lookupEntry cat i = .ok ⟨spn, fmi⟩) :
    ∃ j ≤ i, lookupIndex cat spn fmi = some j := by
  have hi := lookupEntry_ok.mp h
  cases hl : lookupIndex cat spn fmi with
  | none => exact absurd hi (lookupIndex_none.mp hl i)
  | some j =>
    have hfirst := (lookupIndex_some.mp hl).2
    exact ⟨j, Nat.le_of_not_lt fun hlt => hfirst i hlt hi, rfl⟩

/-- A found index of a catalog within R10 is at most 1023, so `IDX` holds it exactly (R132). -/
theorem foundIndex_toNat (hcat : cat.length ≤ 1024) (h : lookupIndex cat spn fmi = some i) :
    (BitVec.ofNat 16 i).toNat = i := by
  have hlt := lookupIndex_lt h
  exact Nat.mod_eq_of_lt (by omega)

end

/-- Settles O39: the entries that a lookup finds, read as fetches. -/
theorem lookupsAgree : Obligations.LookupsAgree := by
  unfold Obligations.LookupsAgree
  refine fun cat spn fmi i => ⟨fun h => ⟨lookupEntry_of_lookupIndex h, lookupIndex_lt h⟩, fun h => ?_⟩
  obtain ⟨j, hle, hj⟩ := lookupIndex_le_of_lookupEntry h
  refine ⟨j, hle, hj, ?first, fun hfirst => ?same⟩
  case first =>
    rintro rfl k hk hc
    exact (lookupIndex_some.mp hj).2 k hk (lookupEntry_ok.mp hc)
  case same =>
    exact hle.eq_of_not_lt fun hlt => hfirst j hlt (lookupEntry_of_lookupIndex hj)

/-! ### The commands -/

section
variable {s : State}

theorem exec_lkidx_found {i : Nat} (h : lookupIndex s.cat s.spn s.fmi = some i) :
    exec .lkidx s = .next { s with idx := BitVec.ofNat 16 i, status := .ok } := by
  rw [exec, execLkidx, h]

theorem exec_lkidx_missed (h : lookupIndex s.cat s.spn s.fmi = none) :
    exec .lkidx s = .next { s with idx := 0xFFFF, status := .notFound } := by
  rw [exec, execLkidx, h]

theorem exec_lkent_ok {e : CatEntry} (h : lookupEntry s.cat s.idx.toNat = .ok e) :
    exec .lkent s = .next { s with spn := e.spn, fmi := e.fmi, status := .ok } := by
  rw [exec, execLkent, h, complete_ok]
  rfl

theorem exec_lkent_error {e : ErrorKind} (h : lookupEntry s.cat s.idx.toNat = .error e) :
    exec .lkent s = .next { s with status := .fatal e } := by
  rw [exec, execLkent, h, complete_error]
  rfl

end

/-- Settles O37: the first index of the pair is the one that is found, and it fits `IDX`. -/
theorem lkidxFindsTheFirst : Obligations.LkidxFindsTheFirst := by
  unfold Obligations.LkidxFindsTheFirst
  refine ⟨decode_of_eq_add (i := .lkidx) rfl rfl, fun s hs => ⟨fun i hi hfirst => ?found, fun hnone => ?missed⟩⟩
  case found =>
    have hl : lookupIndex s.cat s.spn s.fmi = some i := lookupIndex_some.mpr ⟨hi, hfirst⟩
    have hlt : i < 1024 := (lookupIndex_lt hl).trans_le hs.cat_le
    exact ⟨_, exec_lkidx_found hl, foundIndex_toNat hs.cat_le hl, Nat.le_of_lt_succ hlt⟩
  case missed => exact exec_lkidx_missed (lookupIndex_none.mpr hnone)

/-- Settles O38: the entry or the error is that of `lookupEntry`. -/
theorem lkentFetchesTheEntry : Obligations.LkentFetchesTheEntry := by
  unfold Obligations.LkentFetchesTheEntry
  exact ⟨decode_of_eq_add (i := .lkent) rfl rfl, fun s => ⟨fun e he => exec_lkent_ok (lookupEntry_ok.mpr he),
    fun hlen => exec_lkent_error (lookupEntry_error.mpr ⟨hlen, rfl⟩)⟩⟩

/-- Settles O40: `IDX` holds the index of the pair, so the entry that is fetched is the pair (R134 b). -/
theorem lkentAfterLkidx : Obligations.LkentAfterLkidx := by
  unfold Obligations.LkentAfterLkidx
  intro s t hs hidx hok
  obtain ⟨i, hl, rfl⟩ | ⟨-, rfl⟩ := execLkidx_cases hidx
  case inl =>
    refine exec_lkent_ok (e := ⟨s.spn, s.fmi⟩) ?_
    rw [foundIndex_toNat hs.cat_le hl]
    exact lookupEntry_of_lookupIndex hl
  case inr => cases hok

end Sys2Proof.Machine
end

section
/-! SUPPORT. The wire layout by its packs (spec/43_dtc_codec.md R142): `packBits` calls into an eight-byte buffer are
one OR of a 64-bit value, and for the fields of a message that value is `W(k)`. -/

namespace Sys2Proof.Machine

/-- A number cut to a field, at the field's place in a 64-bit value (R62, R113). -/
def placed (f : BitField) (v : Nat) : Nat := (v % 2 ^ f.lengthBits) <<< (8 * f.byteIndex + f.bitIndex)

/-- The 64-bit value that a sequence of packs ORs into an eight-byte buffer. -/
def packedValue : List (BitField × Nat) → Nat
  | [] => 0
  | (f, v) :: rest => placed f v ||| packedValue rest

/-- A placed number has its bits inside the field alone. -/
theorem placed_testBit (f : BitField) (v g : Nat) :
    (placed f v).testBit g =
      (decide (8 * f.byteIndex + f.bitIndex ≤ g ∧ g < 8 * f.byteIndex + f.bitIndex + f.lengthBits) &&
        v.testBit (g - (8 * f.byteIndex + f.bitIndex))) := by
  rw [placed, Nat.testBit_shiftLeft, Nat.testBit_mod_two_pow, ← Bool.and_assoc, ← Bool.decide_and]
  congr 2
  simp only [ge_iff_le, eq_iff_iff]
  omega

/-- What an OR into the whole of an eight-byte buffer leaves in its bits. -/
theorem memOr_message_bufBit (buf : Vector Byte 8) (v : Nat) {g : Nat} (hg : g < 8 * 8) :
    bufBit (memOr buf 0 8 v) g = (bufBit buf g || v.testBit g) := by
  rw [memOr_bufBit _ _ _ _ _ hg]
  simp [hg]

theorem memOr_zero (buf : Vector Byte 8) : memOr buf 0 8 0 = buf :=
  buf_ext fun g hg => by rw [memOr_message_bufBit _ _ hg, Nat.zero_testBit, Bool.or_false]

theorem memOr_memOr (buf : Vector Byte 8) (v w : Nat) :
    memOr (memOr buf 0 8 v) 0 8 w = memOr buf 0 8 (v ||| w) :=
  buf_ext fun g hg => by simp only [memOr_message_bufBit _ _ hg, Nat.testBit_or, Bool.or_assoc]

/-- A 64-bit value ORed into zero bytes is the message of that value (R63). -/
theorem memOr_zeroBuffer (v : Nat) : memOr (Vector.replicate 8 0) 0 8 v = messageBytes v := by
  refine buf_ext fun g hg => ?_
  rw [memOr_message_bufBit _ _ hg, zero_bufBit, Bool.false_or, messageBytes,
    memWrite_bufBit _ _ _ _ _ hg, if_pos (by omega)]
  rfl

/-- A pack of a field inside an eight-byte buffer ORs the value placed at the field (R113). -/
theorem packBits_message {f : BitField} (buf : Vector Byte 8) (v : Nat)
    (hf : checkField 8 f = .ok f) :
    packBits buf 8 f.byteIndex f.bitIndex f.lengthBits v = .ok (memOr buf 0 8 (placed f v)) := by
  obtain ⟨-, hfit⟩ := checkField_ok.mp hf
  refine packBits_ok.mpr ⟨hfit, buf_ext fun g hg => ?_⟩
  rw [packed_bufBit _ _ _ _ _ _ hg, memOr_message_bufBit _ _ hg, placed_testBit]

/-- Packs of fields inside an eight-byte buffer OR their packed value. -/
theorem packAll_eq {fields : List (BitField × Nat)} (buf : Vector Byte 8)
    (h : ∀ p ∈ fields, checkField 8 p.1 = .ok p.1) :
    packAll buf fields = .ok (memOr buf 0 8 (packedValue fields)) := by
  induction fields generalizing buf with
  | nil => rw [packAll, packedValue, memOr_zero]
  | cons p rest ih =>
    obtain ⟨hp, hrest⟩ := List.forall_mem_cons.mp h
    rw [packAll, packBits_message buf p.2 hp]
    exact (ih _ hrest).trans (by rw [memOr_memOr, packedValue])

/-- Settles O42: the eight fields lie inside the message, and their packed value is `W(k)`. -/
theorem messageIsEightPacks : Obligations.MessageIsEightPacks := by
  unfold Obligations.MessageIsEightPacks
  intro cat lamps dtcs mc k hcat
  have hslot (i : Nat) : slotIndex cat dtcs i % 2 ^ 10 = slotIndex cat dtcs i :=
    Nat.mod_eq_of_lt (slotIndex_lt hcat dtcs i)
  have hlamps : lamps.toNat % 2 ^ 4 = lamps.toNat := Nat.mod_eq_of_lt lamps.isLt
  rw [packAll_eq _ ?inside, memOr_zeroBuffer]
  case inside => simp [checkField]
  simp only [packedValue, placed, hslot, hlamps, messageValue, Nat.or_assoc]
  simp

end Sys2Proof.Machine
end

section
/-! SUPPORT. Encoding (spec/43_dtc_codec.md R140 to R146): the slots of the messages in order are the list's own, and
what `ENC` leaves. -/

namespace Sys2Proof.Machine

/-! ### The claims' reading of the list -/

/-- The message count of R143 in its two readings. -/
theorem messageCount_eq_expectedCount (ctrl : BitVec 1) (n : Nat) :
    messageCount (ctrl == 1#1) n = expectedCount ctrl n := by
  obtain rfl | rfl := BitVec.eq_zero_or_eq_one ctrl
  · rfl
  · simp only [messageCount, expectedCount, BEq.rfl, if_true, if_neg (by decide : ¬ 1#1 = 0)]
    split_ifs <;> omega

/-- The misses among the first list positions, counted one by one (R146). -/
theorem missCount_take (s : State) {n : Nat} (hn : n ≤ 20) :
    missCount s.cat (s.adl.toList.take n) = expectedMisses s n := by
  induction n with
  | zero => rfl
  | succ n ih =>
    have hlt : n < s.adl.toList.length := by simpa using hn
    have ih' := ih (by omega)
    unfold missCount at ih' ⊢
    rw [List.take_succ_eq_append_getElem hlt, List.countP_append, ih', List.countP_singleton,
      Nat.add_comm, expectedMisses, dif_pos (by omega)]
    rfl

section
variable {s : State} (hs : s.Inv)
include hs

theorem activeList_length : (activeList s).length = s.adlcnt.toNat := by
  simpa [activeList] using hs.adlcnt_le

/-- The slot value of every list position (R141). -/
theorem slotIndex_activeList (i : Nat) : slotIndex s.cat (activeList s) i = expectedSlot s i := by
  have hle := hs.adlcnt_le
  unfold slotIndex expectedSlot activeList
  by_cases hi : i < s.adlcnt.toNat
  · have hi' : i < 20 := hi.trans_le hle
    simp [hi, hi']
  · simp [hi]

theorem missCount_activeList : missCount s.cat (activeList s) = expectedMisses s s.adlcnt.toNat :=
  missCount_take s hs.adlcnt_le

end

/-! ### The messages -/

/-- The message at each position of an encoding (R142). -/
theorem encodeDtcs_getElem? (ceilcnt : Bool) (lamps : BitVec 4) (dtcs : List DtcEntry) (cat : List CatEntry)
    (k : Nat) :
    (encodeDtcs ceilcnt lamps dtcs cat)[k]? =
      if k < messageCount ceilcnt dtcs.length then
        some (messageBytes (messageValue cat lamps dtcs (messageCount ceilcnt dtcs.length) k))
      else none := by
  by_cases hk : k < messageCount ceilcnt dtcs.length <;> simp [encodeDtcs, hk]

/-- Where the bank holds the messages stored, and where its own (R146). -/
theorem storeMessages_getElem (bank : Vector (Vector Byte 8) 5) (out : List (Vector Byte 8)) (k : Fin 5) :
    (storeMessages bank out)[k] = out[k.val]?.getD bank[k] := by
  simp [storeMessages]

/-- What `ENC` does (R146). -/
theorem exec_enc (s : State) :
    exec .enc s = .next { s with
      msg := storeMessages s.msg (encodeDtcs (s.ctrl == 1#1) s.lamps (activeList s) s.cat)
      msgcnt := BitVec.ofNat 3 (messageCount (s.ctrl == 1#1) (activeList s).length)
      enfcnt := BitVec.ofNat 5 (missCount s.cat (activeList s))
      status := .ok } := by
  rw [exec, execEnc, complete_ok, encodeDtcs_length]
  rfl

/-- `MSGCNT` holds the message count of a list within capacity exactly (R29, R143). -/
theorem messageCount_toNat (ceilcnt : Bool) {n : Nat} (hn : n ≤ 20) :
    (BitVec.ofNat 3 (messageCount ceilcnt n)).toNat = messageCount ceilcnt n := by
  obtain ⟨-, hle, -⟩ := messageCount_bounds ceilcnt hn
  exact Nat.mod_eq_of_lt (by omega)

/-- Settles O41: the counts fit their registers, and every message stored is `W(k)`. -/
theorem encStoresTheMessages : Obligations.EncStoresTheMessages := by
  unfold Obligations.EncStoresTheMessages
  refine ⟨decode_of_eq_add (i := .enc) rfl rfl, fun s hs =>
    ⟨_, _, _, exec_enc s, ?count, ?misses, fun k => ?message⟩⟩
  case count =>
    rw [messageCount_toNat _ (activeList_length_le s), messageCount_eq_expectedCount, activeList_length hs]
  case misses =>
    have hle := (missCount_le s.cat (activeList s)).trans (activeList_length_le s)
    rw [BitVec.toNat_ofNat, Nat.mod_eq_of_lt (by omega), missCount_activeList hs]
  case message =>
    rw [storeMessages_getElem, encodeDtcs_getElem?, messageCount_eq_expectedCount, activeList_length hs]
    refine ⟨fun hbeyond => by rw [if_neg hbeyond.not_gt]; rfl, fun hbelow => ?_⟩
    rw [if_pos hbelow, Option.getD_some, memRead_message hs.cat_le]
    simp only [← slotIndex_activeList hs]
    obtain ⟨hunused, hseq, hcount, hlamps⟩ := messageValue_header hs.cat_le s.lamps (activeList s)
      (expectedCount s.ctrl s.adlcnt.toNat) k.val
    exact ⟨hunused, hseq, hcount, hlamps, messageValue_slots hs.cat_le _ _ _ _⟩

end Sys2Proof.Machine
end

section
/-! SUPPORT. Decoding (spec/43_dtc_codec.md R150 to R152): a decode looks at the slots of all messages and at the lamps
of the first alone, and what `DEC` leaves. -/

namespace Sys2Proof.Machine

/-- A decode within capacity (R150, R152). -/
theorem decodeDtcs_ok {messages : List (Vector Byte 8)} {cat : List CatEntry} {first : Vector Byte 8}
    (hfirst : messages.head? = some first)
    (hlen : ((slotFates cat messages).filterMap SlotFate.entry?).length ≤ 20) :
    decodeDtcs messages cat = .ok ⟨lampsOf first, (slotFates cat messages).filterMap SlotFate.entry?,
      (slotFates cat messages).countP (· == .beyondCatalog)⟩ := by
  obtain ⟨rest, rfl⟩ := List.head?_eq_some_iff.mp hfirst
  rw [decodeDtcs, if_neg hlen.not_gt]

theorem decodeDtcs_overflow {messages : List (Vector Byte 8)} {cat : List CatEntry} (hne : messages ≠ [])
    (hlen : 20 < ((slotFates cat messages).filterMap SlotFate.entry?).length) :
    decodeDtcs messages cat = .error .listOverflow := by
  obtain ⟨first, rest, rfl⟩ := List.exists_cons_of_ne_nil hne
  rw [decodeDtcs, if_pos hlen]

/-- Messages with the same slots, the first with the same lamps, decode alike (R150). -/
theorem decodeDtcs_congr {messages messages' : List (Vector Byte 8)} (cat : List CatEntry)
    (hslots : messages.map slotsOf = messages'.map slotsOf)
    (hlamps : messages.head?.map lampsOf = messages'.head?.map lampsOf) :
    decodeDtcs messages cat = decodeDtcs messages' cat := by
  have hfates : slotFates cat messages = slotFates cat messages' := by
    rw [slotFates, slotFates, List.flatMap_def, List.flatMap_def, hslots]
  cases messages with
  | nil => rw [List.map_eq_nil_iff.mp hslots.symm]
  | cons first rest =>
    cases messages' with
    | nil => cases hslots
    | cons first' rest' =>
      have hfirst : lampsOf first = lampsOf first' := by simpa using hlamps
      rw [decodeDtcs, decodeDtcs, hfates, hfirst]

/-! ### The command -/

section
variable {s : State}

theorem exec_dec_ok {out : Decoded} (h : decodeDtcs (validMessages s) s.cat = .ok out) :
    exec .dec s = .next { s with
      lamps := out.lamps
      adl := storeEntries s.adl out.entries
      adlcnt := BitVec.ofNat 5 out.entries.length
      dskip := BitVec.ofNat 5 out.skipped
      status := .ok } := by
  rw [exec, execDec, h, complete_ok]
  rfl

theorem exec_dec_error {e : ErrorKind} (h : decodeDtcs (validMessages s) s.cat = .error e) :
    exec .dec s = .next { s with status := .fatal e } := by
  rw [exec, execDec, h, complete_error]
  rfl

end

/-- A decode that succeeds fits the registers `ADLCNT` and `DSKIP` (R28, R38). -/
theorem decoded_toNat {s : State} {out : Decoded} (h : decodeDtcs (validMessages s) s.cat = .ok out) :
    (BitVec.ofNat 5 out.entries.length).toNat = out.entries.length ∧
      (BitVec.ofNat 5 out.skipped).toNat = out.skipped := by
  obtain ⟨hentries, hskipped⟩ := decodeDtcs_bounds h
  have hv := validMessages_length_le s
  exact ⟨Nat.mod_eq_of_lt (by omega), Nat.mod_eq_of_lt (by omega)⟩

/-- Where the list holds the entries decoded, and where its own (R152). -/
theorem storeEntries_getElem (adl : Vector DtcEntry 20) (out : List CatEntry) (i : Fin 20) :
    (storeEntries adl out)[i] = match out[i.val]? with
      | some e => ⟨e.spn, e.fmi, 0⟩
      | none => adl[i] := by
  simp only [storeEntries, Fin.getElem_fin, Vector.getElem_mapIdx]
  cases out[i.val]? <;> rfl

/-! ### The claims' reading of the bank -/

/-- With a message count that is not 0 the first valid message is message 0 (R29). -/
theorem validMessages_head? {s : State} (h : s.msgcnt ≠ 0) : (validMessages s).head? = some s.msg[0] := by
  have hpos : s.msgcnt.toNat ≠ 0 := (byte_eq_zero s.msgcnt).not.mp h
  rw [validMessages, List.head?_take, if_neg hpos, List.head?_eq_getElem?]
  simp

/-- The slots of the first messages of the bank, in order (R150). -/
theorem validSlots_eq (s : State) {n : Nat} (hn : n ≤ 5) :
    validSlots s n = (s.msg.toList.take n).flatMap slotsOf := by
  induction n with
  | zero => rfl
  | succ n ih =>
    have hlt : n < s.msg.toList.length := by simpa using hn
    have ih' := ih (by omega)
    unfold validSlots at ih' ⊢
    rw [List.take_succ_eq_append_getElem hlt, List.flatMap_append, ← ih', List.range_succ,
      List.flatMap_append, List.flatMap_singleton, List.flatMap_singleton, slotsOf_eq, messageWord,
      dif_pos (by omega)]
    rfl

/-- Every slot value has ten bits (R93). -/
theorem validSlots_lt {s : State} {n v : Nat} (h : v ∈ validSlots s n) : v < 1024 := by
  simp only [validSlots, List.mem_flatMap, List.mem_map] at h
  obtain ⟨k, -, j, hj, rfl⟩ := h
  refine (bits_lt _ _ _).trans_le ?_
  simp only [List.mem_cons, List.not_mem_nil, or_false] at hj
  obtain rfl | rfl | rfl | rfl | rfl := hj <;> decide

section
variable {s : State} (hs : s.Inv)
include hs

theorem slotFates_validMessages :
    slotFates s.cat (validMessages s) = (validSlots s s.msgcnt.toNat).map (slotFate s.cat) := by
  rw [slotFates, validMessages, validSlots_eq s hs.msgcnt_le]

/-- The entries of the valid slots (R151). -/
theorem entries_validMessages :
    (slotFates s.cat (validMessages s)).filterMap SlotFate.entry? = validEntries s s.msgcnt.toNat := by
  rw [slotFates_validMessages hs, List.filterMap_map, validEntries]
  exact List.filterMap_congr fun v hv => slotFate_entry s.cat (validSlots_lt hv)

/-- The slots skipped for want of a catalog entry (R151). -/
theorem skipped_validMessages :
    (slotFates s.cat (validMessages s)).countP (· == .beyondCatalog) = skippedSlots s s.msgcnt.toNat := by
  rw [slotFates_validMessages hs, List.countP_map, skippedSlots, ← List.countP_eq_length_filter]
  refine List.countP_congr fun v hv => ?_
  simpa using slotFate_beyond s.cat (validSlots_lt hv)

end

theorem lampsOf_toNat (m : Vector Byte 8) : (lampsOf m).toNat = bits (memRead m 0 8) 53 50 :=
  Nat.mod_eq_of_lt (bits_lt _ _ _)

/-- Settles O44: the two errors and the result are those of the decode of the valid messages. -/
theorem decReadsTheMessages : Obligations.DecReadsTheMessages := by
  unfold Obligations.DecReadsTheMessages
  refine ⟨decode_of_eq_add (i := .dec) rfl rfl, fun s hs => ⟨fun hzero => ?empty, fun hne hmore => ?overflow,
    fun hne hfit => ?result⟩⟩
  case empty =>
    refine exec_dec_error ?_
    rw [validMessages, hzero]
    rfl
  case overflow =>
    refine exec_dec_error (decodeDtcs_overflow (fun hnil => ?_) (entries_validMessages hs ▸ hmore))
    have hhead := validMessages_head? hne
    rw [hnil] at hhead
    cases hhead
  case result =>
    have hdec := decodeDtcs_ok (validMessages_head? hne) (entries_validMessages hs ▸ hfit)
    rw [entries_validMessages hs, skipped_validMessages hs] at hdec
    obtain ⟨hcount, hskip⟩ := decoded_toNat hdec
    exact ⟨_, _, _, _, exec_dec_ok hdec, lampsOf_toNat _, hcount, hskip, storeEntries_getElem _ _⟩

/-! ### What a decode does not see -/

/-- A field inside the low bits of a value is a field of the low bits (R12). -/
theorem bits_low (v : Nat) {hi lo n : Nat} (hlo : lo ≤ hi) (hhi : hi ≤ n) :
    bits (bits v n 0) hi lo = bits v hi lo := by
  apply Nat.eq_of_testBit_eq
  intro i
  rw [bits_testBit, bits_testBit, bits_testBit, Nat.zero_add]
  by_cases hi' : i < hi - lo + 1
  · have hin : lo + i ≤ n := by omega
    simp [hin]
  · simp [hi']

/-- The slots of a message are in its bits 49:0 (R92). -/
theorem slotsOf_congr {m m' : Vector Byte 8}
    (h : bits (memRead m 0 8) 49 0 = bits (memRead m' 0 8) 49 0) : slotsOf m = slotsOf m' := by
  rw [slotsOf_eq, slotsOf_eq]
  refine List.map_congr_left fun j hj => ?_
  have hj' : 1 ≤ j := by
    simp only [List.mem_cons, List.not_mem_nil, or_false] at hj
    omega
  rw [← bits_low (memRead m 0 8) (n := 49) (by omega) (by omega), h, bits_low _ (by omega) (by omega)]

/-- Settles O45: the slots of every valid message and the lamps of the first are the same in both banks. -/
theorem decIgnoresTheHeaders : Obligations.DecIgnoresTheHeaders := by
  unfold Obligations.DecIgnoresTheHeaders
  intro s t bank hlow hlamps h
  have hslots : bank.toList.map slotsOf = s.msg.toList.map slotsOf := by
    rw [← Vector.toList_map, ← Vector.toList_map]
    congr 1
    refine Vector.ext fun k hk => ?_
    rw [Vector.getElem_map, Vector.getElem_map]
    exact slotsOf_congr (hlow ⟨k, hk⟩)
  have hfirst : lampsOf bank[0] = lampsOf s.msg[0] := by rw [lampsOf, hlamps, lampsOf]
  have hdec : decodeDtcs (validMessages { s with msg := bank }) s.cat = decodeDtcs (validMessages s) s.cat := by
    refine decodeDtcs_congr _ ?_ ?_
    · simp only [validMessages, List.map_take, hslots]
    · by_cases hzero : s.msgcnt = 0
      · simp [validMessages, hzero]
      · rw [validMessages_head? hzero, validMessages_head? (s := { s with msg := bank }) hzero]
        exact congrArg some hfirst
  obtain ⟨out, hout, rfl⟩ | ⟨e, he, rfl⟩ := complete_next.mp h
  · exact exec_dec_ok (hdec.trans hout)
  · exact exec_dec_error (hdec.trans he)

end Sys2Proof.Machine
end

section
/-! SUPPORT. Decoding what was encoded (spec/43_dtc_codec.md R155 to R157): the slots of an encoding, in order, are
those of the list and then absent ones, so the decoded list is the list without the entries that have no slot value of
their own. -/

namespace Sys2Proof.Machine

/-- An entry has a slot value of its own: it is found, and not at the index that marks an absent slot (R156, R157). -/
def encodable (cat : List CatEntry) (e : DtcEntry) : Bool :=
  (lookupIndex cat e.spn e.fmi).any fun i => i != 1023

/-- The slot value of an entry of the list (R141). -/
def entrySlot (cat : List CatEntry) (e : DtcEntry) : Nat :=
  (lookupIndex cat e.spn e.fmi).getD Config.sent10

/-- The fate of an entry's slot when it is decoded with the catalog it was encoded with. -/
def entryFate (cat : List CatEntry) (e : DtcEntry) : SlotFate :=
  if encodable cat e then .found e.pair else .absent

section
variable {cat : List CatEntry} (hcat : cat.length ≤ 1024)
include hcat

/-- An entry's slot decodes to the entry's pair, or to nothing (R134 b, R156). -/
theorem slotFate_entrySlot (e : DtcEntry) : slotFate cat (entrySlot cat e) = entryFate cat e := by
  cases hl : lookupIndex cat e.spn e.fmi with
  | none => simp [entrySlot, entryFate, encodable, slotFate, hl]
  | some i =>
    have hi := lookupIndex_lt hl
    have hentry := lookupEntry_of_lookupIndex hl
    have hlegacy : i ≠ 0xFFFF := by omega
    by_cases hsent : i = 1023
    · simp [entrySlot, entryFate, encodable, slotFate, hl, hsent]
    · simp [entrySlot, entryFate, encodable, slotFate, hl, hsent, hlegacy, hentry, DtcEntry.pair]

/-- The slots of a stored message are its five positions of the list (R144). -/
theorem slotsOf_message (lamps : BitVec 4) (dtcs : List DtcEntry) (mc k : Nat) :
    slotsOf (messageBytes (messageValue cat lamps dtcs mc k)) =
      (List.range 5).map fun j => slotIndex cat dtcs (5 * k + j) := by
  obtain ⟨h1, h2, h3, h4, h5⟩ := messageValue_slots hcat lamps dtcs mc k
  rw [slotsOf_eq, memRead_message hcat]
  simp [List.range_succ, h1, h2, h3, h4, h5]

theorem lampsOf_message (lamps : BitVec 4) (dtcs : List DtcEntry) (mc k : Nat) :
    lampsOf (messageBytes (messageValue cat lamps dtcs mc k)) = lamps := by
  obtain ⟨-, -, -, hlamps⟩ := messageValue_header hcat lamps dtcs mc k
  apply BitVec.eq_of_toNat_eq
  rw [lampsOf_toNat, memRead_message hcat, hlamps]

end

/-- Five positions after five positions are all positions in order (R144). -/
theorem flatMap_fives {α : Type} (f : Nat → α) (m : Nat) :
    ((List.range m).flatMap fun k => (List.range 5).map fun j => f (5 * k + j)) =
      (List.range (5 * m)).map f := by
  induction m with
  | zero => rfl
  | succ m ih =>
    rw [List.range_succ (n := m), List.flatMap_append, ih, List.flatMap_singleton, Nat.mul_succ, List.range_add,
      List.map_append, List.map_map]
    rfl

/-- The slot values of a list and beyond its end (R141). -/
theorem map_slotIndex (cat : List CatEntry) {dtcs : List DtcEntry} {m : Nat} (hm : dtcs.length ≤ m) :
    (List.range m).map (slotIndex cat dtcs) =
      dtcs.map (entrySlot cat) ++ List.replicate (m - dtcs.length) Config.sent10 := by
  apply List.ext_getElem
  · simp [hm]
  · intro i hi _
    have him : i < m := by simpa using hi
    by_cases hlt : i < dtcs.length
    · simp [slotIndex, entrySlot, hlt]
    · rw [List.getElem_append_right (by simpa using hlt)]
      simp [slotIndex, hlt]

section
variable {cat : List CatEntry} {dtcs : List DtcEntry} (hcat : cat.length ≤ 1024) (hlen : dtcs.length ≤ 20)
  (ceilcnt : Bool) (lamps : BitVec 4)
include hcat hlen

/-- The fates of the slots of an encoding: those of the entries, and then absent slots to fill the last message. -/
theorem slotFates_encode :
    slotFates cat (encodeDtcs ceilcnt lamps dtcs cat) = dtcs.map (entryFate cat) ++
      List.replicate (5 * messageCount ceilcnt dtcs.length - dtcs.length) .absent := by
  obtain ⟨-, -, hroom⟩ := messageCount_bounds ceilcnt hlen
  have habsent : slotFate cat Config.sent10 = .absent := by simp [slotFate]
  have hfates : slotFate cat ∘ entrySlot cat = entryFate cat := funext (slotFate_entrySlot hcat)
  simp only [slotFates, encodeDtcs, List.flatMap_map, slotsOf_message hcat]
  rw [flatMap_fives, map_slotIndex cat hroom, List.map_append, List.map_map, hfates, List.map_replicate, habsent]

/-- What is decoded from an encoding: the pairs of the encodable entries, in order (R155, R156). -/
theorem entries_encode :
    (slotFates cat (encodeDtcs ceilcnt lamps dtcs cat)).filterMap SlotFate.entry? =
      (dtcs.filter (encodable cat)).map DtcEntry.pair := by
  have hentry : SlotFate.entry? ∘ entryFate cat = fun e => if encodable cat e then some e.pair else none := by
    funext e
    simp only [Function.comp_apply, entryFate]
    split <;> rfl
  have habsent (n : Nat) : (List.replicate n SlotFate.absent).filterMap SlotFate.entry? = [] := by
    simp [SlotFate.entry?]
  rw [slotFates_encode hcat hlen, List.filterMap_append, habsent, List.append_nil, List.filterMap_map, hentry,
    ← List.filterMap_eq_map, List.filterMap_filter]
  rfl

/-- No slot of an encoding is beyond the catalog (R157). -/
theorem skipped_encode :
    (slotFates cat (encodeDtcs ceilcnt lamps dtcs cat)).countP (· == .beyondCatalog) = 0 := by
  rw [slotFates_encode hcat hlen, List.countP_eq_zero]
  intro f hf
  obtain he | habsent := List.mem_append.mp hf
  · obtain ⟨e, -, rfl⟩ := List.mem_map.mp he
    unfold entryFate
    split <;> simp
  · simp [List.eq_of_mem_replicate habsent]

/-- Decoding an encoding gives the lamps and the pairs of the encodable entries back (R155, R156, R157). -/
theorem decode_encodeDtcs :
    decodeDtcs (encodeDtcs ceilcnt lamps dtcs cat) cat =
      .ok ⟨lamps, (dtcs.filter (encodable cat)).map DtcEntry.pair, 0⟩ := by
  obtain ⟨hpos, -, -⟩ := messageCount_bounds ceilcnt hlen
  have hhead := (List.head?_eq_getElem? (l := encodeDtcs ceilcnt lamps dtcs cat)).trans
    ((encodeDtcs_getElem? ceilcnt lamps dtcs cat 0).trans (if_pos hpos))
  have hfit : ((dtcs.filter (encodable cat)).map DtcEntry.pair).length ≤ 20 := by
    rw [List.length_map]
    exact (List.length_filter_le _ _).trans hlen
  rw [← entries_encode hcat hlen ceilcnt lamps] at hfit ⊢
  rw [decodeDtcs_ok hhead hfit, lampsOf_message hcat, skipped_encode hcat hlen]

/-- With every entry encodable the whole list comes back (R155). -/
theorem decode_encodeDtcs_all (hall : ∀ e ∈ dtcs, ∃ i, lookupIndex cat e.spn e.fmi = some i ∧ i ≠ 1023) :
    decodeDtcs (encodeDtcs ceilcnt lamps dtcs cat) cat = .ok ⟨lamps, dtcs.map DtcEntry.pair, 0⟩ := by
  have hkeep : dtcs.filter (encodable cat) = dtcs := by
    refine List.filter_eq_self.mpr fun e he => ?_
    obtain ⟨i, hi, hne⟩ := hall e he
    simp [encodable, hi, hne]
  rw [decode_encodeDtcs hcat hlen, hkeep]

end

/-- Settles O47: the encodable entries are those that the statement keeps. -/
theorem decodeOfEncodeDropsTheUnencodable : Obligations.DecodeOfEncodeDropsTheUnencodable := by
  unfold Obligations.DecodeOfEncodeDropsTheUnencodable
  intro ceilcnt lamps dtcs cat hcat hlen
  exact decode_encodeDtcs hcat hlen ceilcnt lamps

/-- Settles O46: every entry is encodable. -/
theorem decodeOfEncode : Obligations.DecodeOfEncode := by
  unfold Obligations.DecodeOfEncode
  intro ceilcnt lamps dtcs cat hcat hlen hall
  exact decode_encodeDtcs_all hcat hlen ceilcnt lamps hall

/-! ### The commands -/

/-- The valid messages of a bank in which messages were stored, as many as the count says, are those messages. -/
theorem take_storeMessages (bank : Vector (Vector Byte 8) 5) {out : List (Vector Byte 8)} (h : out.length ≤ 5) :
    (storeMessages bank out).toList.take out.length = out := by
  apply List.ext_getElem
  · simp [h]
  · intro k _ hk
    simp [storeMessages, hk]

/-- No miss in a list whose entries are all found (R146). -/
theorem missCount_eq_zero {cat : List CatEntry} {dtcs : List DtcEntry}
    (hall : ∀ e ∈ dtcs, ∃ i, lookupIndex cat e.spn e.fmi = some i ∧ i ≠ 1023) : missCount cat dtcs = 0 := by
  refine List.countP_eq_zero.mpr fun e he => ?_
  obtain ⟨i, hi, -⟩ := hall e he
  simp [hi]

/-- What holds of the list positions below `ADLCNT` holds of the active list (R28). -/
theorem forall_mem_activeList {s : State} {P : DtcEntry → Prop}
    (h : ∀ i : Fin 20, i.val < s.adlcnt.toNat → P s.adl[i]) : ∀ e ∈ activeList s, P e := by
  intro e he
  obtain ⟨i, hi, rfl⟩ := List.getElem_of_mem he
  obtain ⟨hcnt, hlt⟩ : i < s.adlcnt.toNat ∧ i < 20 := by simpa [activeList] using hi
  simpa [activeList] using h ⟨i, hlt⟩ hcnt

/-- Settles O48: the valid messages of the second state are the encoding, which decodes to the active list. -/
theorem decAfterEnc : Obligations.DecAfterEnc := by
  unfold Obligations.DecAfterEnc
  intro s t u hs henc hfound hmsg hmsgcnt hcat
  rw [exec_enc] at henc
  cases henc
  have hall : ∀ e ∈ activeList s, ∃ x, lookupIndex s.cat e.spn e.fmi = some x ∧ x ≠ 1023 :=
    forall_mem_activeList hfound
  have hlen := activeList_length_le s
  have hvalid : validMessages u = encodeDtcs (s.ctrl == 1#1) s.lamps (activeList s) s.cat := by
    rw [validMessages, hmsg, hmsgcnt, messageCount_toNat _ hlen, ← encodeDtcs_length _ s.lamps _ s.cat]
    refine take_storeMessages _ ?_
    rw [encodeDtcs_length]
    exact (messageCount_bounds _ hlen).2.1
  have hdec : decodeDtcs (validMessages u) u.cat = .ok ⟨s.lamps, (activeList s).map DtcEntry.pair, 0⟩ := by
    rw [hvalid, hcat]
    exact decode_encodeDtcs_all hs.cat_le hlen _ _ hall
  refine ⟨_, exec_dec_ok hdec, ?misses, rfl, rfl, ?count, rfl, fun i hi => ?entry⟩
  case misses => exact congrArg (BitVec.ofNat 5) (missCount_eq_zero hall)
  case count =>
    rw [List.length_map, activeList_length hs, BitVec.ofNat_toNat, BitVec.setWidth_eq]
  case entry =>
    rw [storeEntries_getElem]
    simp [activeList, hi, DtcEntry.pair]

end Sys2Proof.Machine
end

section
/-! SUPPORT. The telegram descriptor interpreter (spec/44_telegram.md): the signal a search finds, the checks that
`XSIG` and `SIGLOC` share, and the three commands by what their checks answer. -/

namespace Sys2Proof.Machine

/-! ### The search for a signal -/

section
variable {x : Descriptor} {name : BitVec 64} {g : Signal}

/-- A search finds the first signal that has the key's name (R170). -/
theorem findSignal_ok :
    findSignal x name = .ok g ↔
      ∃ i, x.sigs[i]? = some g ∧ g.name = name ∧
        ∀ (j : Nat) (h : Signal), j < i → x.sigs[j]? = some h → h.name ≠ name := by
  have hfind : findSignal x name = .ok g ↔ x.sigs.find? (fun g => g.name == name) = some g := by
    unfold findSignal
    split <;> simp [*]
  rw [hfind, List.find?_eq_some_iff_getElem]
  constructor
  · rintro ⟨hname, i, hi, rfl, hfirst⟩
    refine ⟨i, List.getElem?_eq_getElem hi, eq_of_beq hname, fun j h hj hget => ?_⟩
    obtain ⟨-, rfl⟩ := List.getElem?_eq_some_iff.mp hget
    simpa using hfirst j hj
  · rintro ⟨i, hget, hname, hfirst⟩
    obtain ⟨hi, hg⟩ := List.getElem?_eq_some_iff.mp hget
    refine ⟨beq_iff_eq.mpr hname, i, hi, hg, fun j hj => ?_⟩
    simpa using hfirst j _ hj (List.getElem?_eq_getElem (hj.trans hi))

/-- A search misses when no signal of the descriptor has the key's name (R170). -/
theorem findSignal_missed :
    findSignal x name = .error .signalNotFound ↔ ∀ g ∈ x.sigs, g.name ≠ name := by
  have hfind : findSignal x name = .error .signalNotFound ↔
      x.sigs.find? (fun g => g.name == name) = none := by
    unfold findSignal
    split <;> simp [*]
  simp [hfind]

end

/-- Settles O49: a found signal by its index, and a miss. -/
theorem findSignalTakesTheFirst : Obligations.FindSignalTakesTheFirst := by
  unfold Obligations.FindSignalTakesTheFirst
  exact fun x name => ⟨fun g => findSignal_ok, findSignal_missed⟩

/-! ### The signal operand -/

section
variable {desc : List Descriptor} {d : Nat} {name : BitVec 64} {x : Descriptor} {g : Signal}

theorem signalOperand_badOperand (h : desc.length ≤ d) :
    signalOperand desc d name = .error .badOperand := by
  rw [signalOperand, descriptorOperand_error.mpr ⟨h, rfl⟩]

theorem signalOperand_signalNotFound (hx : desc[d]? = some x) (h : ∀ g ∈ x.sigs, g.name ≠ name) :
    signalOperand desc d name = .error .signalNotFound := by
  rw [signalOperand_eq name hx, findSignal_missed.mpr h, Except.map]

theorem signalOperand_found (hx : desc[d]? = some x) (hg : findSignal x name = .ok g) :
    signalOperand desc d name = .ok (x, g) := by
  rw [signalOperand_eq name hx, hg, Except.map]

/-- A signal operand is a descriptor of the table and the signal its search finds (R176). -/
theorem signalOperand_ok :
    signalOperand desc d name = .ok (x, g) ↔ desc[d]? = some x ∧ findSignal x name = .ok g := by
  refine ⟨fun h => ?_, fun ⟨hx, hg⟩ => signalOperand_found hx hg⟩
  unfold signalOperand at h
  split at h
  · cases h
  next x' hx =>
    split at h
    · cases h
    next g' hg =>
      cases h
      exact ⟨descriptorOperand_ok.mp hx, hg⟩

end

/-! ### The checks of `XSIG` and `SIGLOC`

Both commands test the same things in the same order (R206); they differ in the length in bytes that the range is
checked against, which is `limit` here. -/

/-- The 0-based field of the signal named `NAME`, after all the checks (R172, R176, R178). -/
def signalField (limit : Descriptor → Nat) (d : Nat) (s : State) : Except ErrorKind BitField :=
  (signalOperand s.desc d s.name).bind fun p => (toZeroBased p.2).bind (checkField (limit p.1))

/-- The length that `XSIG` checks against: the smaller of the declared one and `FLEN` (R173). -/
def loadedLength (s : State) (x : Descriptor) : Nat := min x.lenBytes.toNat s.flen.toNat

section
variable {limit : Descriptor → Nat} {d : Nat} {s : State} {x : Descriptor} {g : Signal} {f : BitField}

theorem signalField_badOperand (h : s.desc.length ≤ d) : signalField limit d s = .error .badOperand := by
  rw [signalField, signalOperand_badOperand h, Except.bind]

theorem signalField_signalNotFound (hx : s.desc[d]? = some x) (h : ∀ g ∈ x.sigs, g.name ≠ s.name) :
    signalField limit d s = .error .signalNotFound := by
  rw [signalField, signalOperand_signalNotFound hx h, Except.bind]

theorem signalField_badDescriptor (hx : s.desc[d]? = some x) (hg : findSignal x s.name = .ok g)
    (h : g.byte1.toNat = 0 ∨ g.bit1.toNat = 0 ∨ 8 < g.bit1.toNat) :
    signalField limit d s = .error .badDescriptor := by
  rw [signalField, signalOperand_found hx hg, Except.bind, toZeroBased_error.mpr ⟨h, rfl⟩, Except.bind]

/-- For a signal with a legal position, what is left is the check of its field. -/
theorem signalField_located (hx : s.desc[d]? = some x) (hg : findSignal x s.name = .ok g)
    (hz : toZeroBased g = .ok f) : signalField limit d s = checkField (limit x) f := by
  rw [signalField, signalOperand_found hx hg, Except.bind, hz, Except.bind]

/-- A field that passes the checks is that of a signal with a legal position. -/
theorem signalField_ok (h : signalField limit d s = .ok f) :
    ∃ x g, s.desc[d]? = some x ∧ findSignal x s.name = .ok g ∧ toZeroBased g = .ok f ∧
      checkField (limit x) f = .ok f := by
  unfold signalField at h
  cases ho : signalOperand s.desc d s.name with
  | error e => rw [ho] at h; cases h
  | ok xg =>
    obtain ⟨x, g⟩ := xg
    obtain ⟨hx, hg⟩ := signalOperand_ok.mp ho
    cases hz : toZeroBased g with
    | error e => simp only [ho, Except.bind, hz] at h; cases h
    | ok f' =>
      simp only [ho, Except.bind, hz] at h
      obtain ⟨rfl, -⟩ := checkField_ok.mp h
      exact ⟨x, g, hx, hg, hz, h⟩

end

/-- `SIGLOC` checks against the declared length alone (R178). -/
theorem siglocField_eq (d : Nat) (s : State) :
    siglocField d s = signalField (fun x => x.lenBytes.toNat) d s := by
  unfold siglocField signalField locateFound
  cases signalOperand s.desc d s.name with
  | error e => rfl
  | ok p =>
    simp only [Except.bind]
    cases toZeroBased p.2 <;> rfl

/-- What the extractor reads from a field (R110). -/
def fieldContents {len : Nat} (buf : Vector Byte len) (f : BitField) : Nat :=
  memRead buf f.byteIndex (numBytes f.bitIndex f.lengthBits) >>> f.bitIndex &&& mask f.lengthBits

theorem extractBits_eq_map {len : Nat} (buf : Vector Byte len) (total : Nat) (f : BitField) :
    extractBits buf total f.byteIndex f.bitIndex f.lengthBits =
      (checkField total f).map (fieldContents buf) := by
  rw [extractBits_eq]
  cases h : checkField total f with
  | error e => rfl
  | ok f' =>
    obtain ⟨rfl, -⟩ := checkField_ok.mp h
    rfl

/-- `XSIG` checks against the loaded length and reads the field (R173, R176). -/
theorem xsigValue_eq (d : Nat) (s : State) :
    xsigValue d s = (signalField (loadedLength s) d s).map (fieldContents s.fb) := by
  unfold xsigValue signalField signalOperand
  cases descriptorOperand s.desc d with
  | error e => rfl
  | ok x =>
    simp only [extractSignal]
    cases findSignal x s.name with
    | error e => rfl
    | ok g =>
      simp only [extractFound, Except.bind]
      cases toZeroBased g with
      | error e => rfl
      | ok f => exact extractBits_eq_map s.fb (loadedLength s x) f

/-! ### The commands by what their checks answer -/

section
variable {s : State} {d : Nat} {x : Descriptor} {g : Signal} {f : BitField} {e : ErrorKind}

theorem exec_xsig_ok (h : signalField (loadedLength s) d s = .ok f) :
    exec (.xsig d) s = .next { s with res := BitVec.ofNat 64 (fieldContents s.fb f), status := .ok } := by
  rw [exec, execXsig, xsigValue_eq, h, Except.map, complete_ok]
  rfl

theorem exec_xsig_error (h : signalField (loadedLength s) d s = .error e) :
    exec (.xsig d) s = .next { s with status := .fatal e } := by
  rw [exec, execXsig, xsigValue_eq, h, Except.map, complete_error]
  rfl

theorem exec_sigloc_ok (h : signalField (fun x => x.lenBytes.toNat) d s = .ok f) :
    exec (.sigloc d) s =
      .next { s with
        loc := BitVec.ofNat 24 (fieldOperand f.byteIndex f.bitIndex f.lengthBits), status := .ok } := by
  rw [exec, execSigloc, siglocField_eq, h, complete_ok]
  rfl

theorem exec_sigloc_error (h : signalField (fun x => x.lenBytes.toNat) d s = .error e) :
    exec (.sigloc d) s = .next { s with status := .fatal e } := by
  rw [exec, execSigloc, siglocField_eq, h, complete_error]
  rfl

theorem exec_phys_ok (h : signalOperand s.desc d s.name = .ok (x, g)) :
    exec (.phys d) s = .next ((storePhysical s (physicalValue g s.res)).withStatus .ok) := by
  rw [exec, execPhys, h, complete_ok]

theorem exec_phys_error (h : signalOperand s.desc d s.name = .error e) :
    exec (.phys d) s = .next { s with status := .fatal e } := by
  rw [exec, execPhys, h, complete_error]
  rfl

end

/-- Settles O50: the errors are those of the shared checks, and `RES` has room for the 64 bits of a field. -/
theorem xsigReadsTheSignal : Obligations.XsigReadsTheSignal := by
  unfold Obligations.XsigReadsTheSignal
  refine ⟨fun d hd => ?word, fun s d _ => ⟨fun h => exec_xsig_error (signalField_badOperand h), fun x hx =>
    ⟨fun h => exec_xsig_error (signalField_signalNotFound hx h), fun g hg =>
      ⟨fun h => exec_xsig_error (signalField_badDescriptor hx hg h), fun y b hy hb hb7 => ?field⟩⟩⟩⟩
  case word =>
    refine decode_of_eq_add (i := .xsig d) (decide_eq_true hd) ?_
    rw [Instr.opcode, Instr.operand]
    omega
  case field =>
    have hfield := signalField_located (limit := loadedLength s) (f := ⟨y, b, g.lengthBits.toNat⟩) hx hg
      (toZeroBased_ok.mpr ⟨hy, hb, hb7, rfl⟩)
    refine ⟨fun h => exec_xsig_error (hfield.trans (checkField_outOfRange h)), fun hend =>
      ⟨fun hl => exec_xsig_error (hfield.trans (checkField_invalidLength hend hl)), fun hpos hmax => ?_⟩⟩
    refine ⟨_, exec_xsig_ok (hfield.trans (checkField_ok.mpr ⟨rfl, hend, hpos, hmax⟩)), fun i hi => ?_⟩
    rw [BitVec.getLsbD_ofNat, decide_eq_true hi, Bool.true_and, fieldContents, fieldValue_testBit]

/-- The fields of `LOC` are the numbers it was made of, and its other bits are 0 (R36). -/
theorem bits_fieldOperand {y b l : Nat} (hy : y ≤ 255) (hb : b ≤ 7) (hl : l ≤ 127) :
    bits (fieldOperand y b l) 23 16 = y ∧ bits (fieldOperand y b l) 15 11 = 0 ∧
      bits (fieldOperand y b l) 10 8 = b ∧ bits (fieldOperand y b l) 7 7 = 0 ∧
      bits (fieldOperand y b l) 6 0 = l := by
  rw [fieldOperand_eq (by omega) (by omega)]
  simp only [bits]
  omega

/-- A format B operand fits the 24 bits of `LOC` (R36). -/
theorem location_toNat {y b l : Nat} (hy : y ≤ 255) (hb : b ≤ 7) (hl : l ≤ 127) :
    (BitVec.ofNat 24 (fieldOperand y b l)).toNat = fieldOperand y b l :=
  Nat.mod_eq_of_lt (Laws.EncodeShape.fieldOperand_lt (fieldOperand_fits hy hb hl))

/-- Settles O51: the errors are those of the shared checks, and `LOC` holds the field in its places. -/
theorem siglocLocatesTheSignal : Obligations.SiglocLocatesTheSignal := by
  unfold Obligations.SiglocLocatesTheSignal
  refine ⟨fun d hd => ?word, fun s d => ⟨fun h => exec_sigloc_error (signalField_badOperand h), fun x hx =>
    ⟨fun h => exec_sigloc_error (signalField_signalNotFound hx h), fun g hg =>
      ⟨fun h => exec_sigloc_error (signalField_badDescriptor hx hg h), fun y b hy hb hb7 => ?field⟩⟩⟩⟩
  case word =>
    refine decode_of_eq_add (i := .sigloc d) (decide_eq_true hd) ?_
    rw [Instr.opcode, Instr.operand]
    omega
  case field =>
    have hfield := signalField_located (limit := fun x => x.lenBytes.toNat) (f := ⟨y, b, g.lengthBits.toNat⟩) hx hg
      (toZeroBased_ok.mpr ⟨hy, hb, hb7, rfl⟩)
    refine ⟨fun h => exec_sigloc_error (hfield.trans (checkField_outOfRange h)), fun hend =>
      ⟨fun hl => exec_sigloc_error (hfield.trans (checkField_invalidLength hend hl)), fun hpos hmax => ?_⟩⟩
    refine ⟨_, exec_sigloc_ok (hfield.trans (checkField_ok.mpr ⟨rfl, hend, hpos, hmax⟩)), ?_⟩
    have hy255 : y ≤ 255 := by have := g.byte1.isLt; omega
    have hl127 : g.lengthBits.toNat ≤ 127 := by omega
    rw [location_toNat hy255 hb7 hl127]
    exact bits_fieldOperand hy255 hb7 hl127

/-- An `Integer` physical value is an exact sum in 66 bits (R181). -/
theorem integerValue_toInt (raw : BitVec 64) (offset : BitVec 32) :
    (BitVec.ofInt 66 (raw.toNat + signed 32 offset.toNat)).toInt = raw.toNat + offset.toInt := by
  have hraw := raw.isLt
  have hlo := BitVec.le_toInt offset
  have hhi := BitVec.toInt_lt (x := offset)
  rw [signed_toInt, BitVec.toInt_ofInt]
  exact Int.bmod_eq_of_le (by omega) (by omega)

/-- Settles O52: the errors are those of the signal operand, and the kind of the signal says which value is stored. -/
theorem physComputesTheValue : Obligations.PhysComputesTheValue := by
  unfold Obligations.PhysComputesTheValue
  refine ⟨fun d hd => ?word, fun s d => ⟨fun h => exec_phys_error (signalOperand_badOperand h), fun x hx =>
    ⟨fun h => exec_phys_error (signalOperand_signalNotFound hx h), fun g hg =>
      ⟨fun hkind => ?integer, fun hkind => ?float⟩⟩⟩⟩
  case word =>
    refine decode_of_eq_add (i := .phys d) (decide_eq_true hd) ?_
    rw [Instr.opcode, Instr.operand]
    omega
  case integer =>
    refine ⟨_, ?_, integerValue_toInt s.res g.offset⟩
    rw [exec_phys_ok (signalOperand_found hx hg), physicalValue, hkind]
    rfl
  case float =>
    rw [exec_phys_ok (signalOperand_found hx hg), physicalValue, hkind]
    rfl

/-! ### `XSIG` against `SIGLOC` and `XBITS` (R183) -/

/-- A field inside `n` bytes is checked against the smaller of `n` and `m` as against `m`. -/
theorem checkField_min {n : Nat} {f : BitField} (h : checkField n f = .ok f) (m : Nat) :
    checkField (min n m) f = checkField m f := by
  obtain ⟨-, hend, -⟩ := checkField_ok.mp h
  have hiff : 8 * f.byteIndex + f.bitIndex + f.lengthBits > 8 * min n m ↔
      8 * f.byteIndex + f.bitIndex + f.lengthBits > 8 * m := by omega
  simp only [checkField, hiff]

/-- The `XBITS` word over the contents of `LOC` (R36, R84). -/
theorem decode_xbits_location {y b l : Nat} (hy : y ≤ 255) (hb : b ≤ 7) (hl : l ≤ 127) :
    decode (0x10000000#32 ||| (BitVec.ofNat 24 (fieldOperand y b l)).setWidth 32) = .ok (.xbits y b l) := by
  refine decode_ok_iff.mpr ⟨fieldOperand_fits hy hb hl, BitVec.eq_of_toNat_eq ?_⟩
  rw [BitVec.toNat_or, BitVec.toNat_setWidth, location_toNat hy hb hl, encode, Instr.opcode, Instr.operand,
    BitVec.toNat_ofNat, Nat.or_mod_two_pow]
  rfl

/-- Settles O53: the field of `SIGLOC` is checked against `FLEN` by both commands. -/
theorem siglocThenXbitsIsXsig : Obligations.SiglocThenXbitsIsXsig := by
  unfold Obligations.SiglocThenXbitsIsXsig
  intro s t d _ hsigloc hok
  cases hfield : signalField (fun x => x.lenBytes.toNat) d s with
  | error e =>
    rw [exec_sigloc_error hfield] at hsigloc
    cases hsigloc
    cases hok
  | ok f =>
    rw [exec_sigloc_ok hfield] at hsigloc
    cases hsigloc
    obtain ⟨x, g, hx, hg, hz, hcheck⟩ := signalField_ok hfield
    obtain ⟨hy, -, hb, -⟩ := toZeroBased_ok.mp hz
    obtain ⟨-, -, -, hl⟩ := checkField_ok.mp hcheck
    have hloaded := signalField_located (limit := loadedLength s) hx hg hz
    refine ⟨.xbits f.byteIndex f.bitIndex f.lengthBits, ?word, ?same, fun x' hx' hflen => ?total⟩
    case word => exact decode_xbits_location (by have := g.byte1.isLt; omega) hb (by omega)
    case same =>
      rw [loadedLength, checkField_min hcheck] at hloaded
      rw [exec, exec, execXbits, execXsig, xsigValue_eq, hloaded, extractBits_eq_map]
    case total =>
      obtain rfl : x = x' := Option.some.inj (hx.symm.trans hx')
      rw [loadedLength, min_eq_left hflen, hcheck] at hloaded
      exact ⟨_, exec_xsig_ok hloaded, rfl⟩

end Sys2Proof.Machine
end

section
/-! SUPPORT. The system commands (spec/45_system.md): the checks of the two copies by what they answer, the bytes a
copy leaves, and the four commands. -/

namespace Sys2Proof.Machine

/-! ### The checks of the copies -/

/-- An index of the bank is accepted as a format K operand (R86). -/
theorem messageOperand_index (k : Fin 5) : messageOperand k.val = .ok k := messageOperand_ok.mpr rfl

/-- Operands 5, 6 and 7 name no message (R86). -/
theorem messageOperand_badOperand {k : Nat} (h : 5 ≤ k) : messageOperand k = .error .badOperand :=
  dif_neg (by omega)

/-- Both checks of `MOVFM` raise the same error (R193). -/
theorem movfmOperand_badOperand {k : Nat} {flen : BitVec 8} (h : 5 ≤ k ∨ flen ≠ 8) :
    movfmOperand k flen = .error .badOperand := by
  rw [movfmOperand]
  by_cases hk : 5 ≤ k
  · rw [messageOperand_badOperand hk]
  · have hflen : flen ≠ 8 := h.resolve_left hk
    rw [messageOperand, dif_pos (by omega : k < 5)]
    exact if_neg hflen

/-! ### The bytes of the copies -/

/-- A frame buffer with a message over its first eight bytes (R192). -/
def loadMessage (fb : Vector Byte Config.bufCap) (m : Vector Byte 8) : Vector Byte Config.bufCap :=
  fb.mapIdx fun i old => if h : i < 8 then m[i] else old

section
variable (fb : Vector Byte Config.bufCap) (m : Vector Byte 8)

theorem loadMessage_getElem?_message (i : Fin 8) : (loadMessage fb m).toList[i.val]? = some m[i] := by
  have hi : i.val < Config.bufCap := Nat.lt_of_lt_of_le i.isLt Config.msgBytes_le_bufCap
  simp [loadMessage, hi]

theorem loadMessage_getElem?_beyond {i : Nat} (h : 8 ≤ i) : (loadMessage fb m).toList[i]? = fb.toList[i]? := by
  have hi : ¬ i < 8 := by omega
  simp [loadMessage, hi]

/-- Each byte of the message that `MOVFM` stores is the byte of the buffer at its index (R193). -/
theorem firstEight_getElem (i : Fin 8) : some (firstEight fb)[i] = fb.toList[i.val]? := by
  have hi : i.val < Config.bufCap := Nat.lt_of_lt_of_le i.isLt Config.msgBytes_le_bufCap
  simp [firstEight, hi]

end

/-- Storing a message in the bank leaves the other messages (R193). -/
theorem setMessage_getElem (bank : Vector (Vector Byte 8) 5) (m : Vector Byte 8) (j k : Fin 5) :
    (bank.set k m)[j] = if j = k then m else bank[j] := by
  simp [Vector.getElem_set, Fin.ext_iff, eq_comm]

/-! ### The commands -/

section
variable (s : State)

theorem exec_nop : exec .nop s = .next { s with status := .ok } := by
  rw [exec, execNop, complete_ok]
  rfl

theorem exec_clrfb :
    exec .clrfb s = .next { s with fb := Vector.replicate Config.bufCap 0, status := .ok } := by
  rw [exec, execClrfb, complete_ok]
  rfl

theorem exec_movmf_ok (k : Fin 5) :
    exec (.movmf k) s =
      .next { s with fb := loadMessage s.fb s.msg[k], flen := 8, status := .ok } := by
  rw [exec, execMovmf, messageOperand_index, complete_ok]
  rfl

theorem exec_movmf_error {k : Nat} (h : 5 ≤ k) :
    exec (.movmf k) s = .next { s with status := .fatal .badOperand } := by
  rw [exec, execMovmf, messageOperand_badOperand h, complete_error]
  rfl

theorem exec_movfm_ok (k : Fin 5) (h : s.flen = 8) :
    exec (.movfm k) s = .next { s with msg := s.msg.set k (firstEight s.fb), status := .ok } := by
  rw [exec, execMovfm, movfmOperand_ok.mpr ⟨rfl, h⟩, complete_ok]
  rfl

theorem exec_movfm_error {k : Nat} (h : 5 ≤ k ∨ s.flen ≠ 8) :
    exec (.movfm k) s = .next { s with status := .fatal .badOperand } := by
  rw [exec, execMovfm, movfmOperand_badOperand h, complete_error]
  rfl

end

/-- Settles O25: the zero word has opcode 0 and no operand, and `NOP` has no error. -/
theorem nopSetsStatusOk : Obligations.NopSetsStatusOk := by
  unfold Obligations.NopSetsStatusOk
  exact ⟨decode_of_eq_add rfl rfl, exec_nop⟩

/-- Settles O26: `CLRFB` replaces the buffer by the zero buffer. -/
theorem clrfbZeroesTheBuffer : Obligations.ClrfbZeroesTheBuffer := by
  unfold Obligations.ClrfbZeroesTheBuffer
  exact ⟨decode_of_eq_add rfl rfl, fun s => ⟨_, exec_clrfb s, fun i => Vector.getElem_replicate i.isLt⟩⟩

/-- Settles O27: the buffer that `MOVMF` leaves is the old one under the message. -/
theorem movmfCopiesTheMessage : Obligations.MovmfCopiesTheMessage := by
  unfold Obligations.MovmfCopiesTheMessage
  refine ⟨fun k hk => ?word, fun s =>
    ⟨fun k => ⟨_, exec_movmf_ok s k, ?message, fun i hi => ?beyond⟩, fun k hk => exec_movmf_error s hk⟩⟩
  case word =>
    refine decode_of_eq_add (i := .movmf k) (decide_eq_true hk) ?_
    rw [Instr.opcode, Instr.operand]
    omega
  case message => exact loadMessage_getElem?_message s.fb s.msg[k]
  case beyond => exact loadMessage_getElem?_beyond s.fb s.msg[k] hi

/-- Settles O28: the bank that `MOVFM` leaves is the old one with one message set to the first eight bytes. -/
theorem movfmCopiesTheBuffer : Obligations.MovfmCopiesTheBuffer := by
  unfold Obligations.MovfmCopiesTheBuffer
  refine ⟨fun k hk => ?word, fun s =>
    ⟨fun k hflen => ⟨_, exec_movfm_ok s k hflen, fun j i => ?bytes⟩, fun k h => exec_movfm_error s h⟩⟩
  case word =>
    refine decode_of_eq_add (i := .movfm k) (decide_eq_true hk) ?_
    rw [Instr.opcode, Instr.operand]
    omega
  case bytes =>
    rw [setMessage_getElem]
    split
    · exact firstEight_getElem s.fb i
    · rfl

end Sys2Proof.Machine
end

section
/-! SUPPORT. How a command ends (spec/60_exceptions.md): the error kinds each check can raise, the code that a command
leaves in `STATUS`, what a fatal code leaves unchanged, and that the old `STATUS` plays no part. -/

namespace Sys2Proof.Machine

/-! ### The error kinds of the checks (R206) -/

/-- If a check or a computation fails, then with one of the kinds. -/
def RaisesOnly {α : Type} (kinds : List ErrorKind) (r : Except ErrorKind α) : Prop :=
  ∀ e, r = .error e → e ∈ kinds

section
variable {α β : Type} {kinds kinds' : List ErrorKind}

theorem raisesOnly_ok (a : α) : RaisesOnly kinds (.ok a) := nofun

theorem raisesOnly_error {e : ErrorKind} (h : e ∈ kinds) :
    RaisesOnly kinds (.error e : Except ErrorKind α) := by
  rintro _ ⟨⟩
  exact h

/-- A function of a check's answer raises what the check raises. -/
theorem RaisesOnly.map {r : Except ErrorKind α} (h : RaisesOnly kinds r) (f : α → β) :
    RaisesOnly kinds (r.map f) := by
  cases r with
  | ok a => exact raisesOnly_ok (f a)
  | error e => exact raisesOnly_error (h e rfl)

/-- Two checks in a row raise what either raises. -/
theorem RaisesOnly.bind {r : Except ErrorKind α} {f : α → Except ErrorKind β}
    (h : RaisesOnly kinds r) (hf : ∀ a, RaisesOnly kinds' (f a)) :
    RaisesOnly (kinds ++ kinds') (r.bind f) := by
  cases r with
  | ok a => exact fun e he => List.mem_append_right _ (hf a e he)
  | error e => exact raisesOnly_error (List.mem_append_left _ (h e rfl))

end

theorem messageOperand_raises (k : Nat) : RaisesOnly [.badOperand] (messageOperand k) := by
  unfold messageOperand
  split
  · exact raisesOnly_ok _
  · exact raisesOnly_error (by decide)

theorem movfmOperand_raises (k : Nat) (flen : BitVec 8) : RaisesOnly [.badOperand] (movfmOperand k flen) := by
  unfold movfmOperand
  cases h : messageOperand k with
  | error e => exact raisesOnly_error (messageOperand_raises k e h)
  | ok j =>
    dsimp only
    split
    · exact raisesOnly_ok j
    · exact raisesOnly_error (by decide)

theorem checkField_raises (total : Nat) (f : BitField) :
    RaisesOnly [.outOfRange, .invalidLength] (checkField total f) := by
  unfold checkField
  split
  · exact raisesOnly_error (by decide)
  · split
    · exact raisesOnly_error (by decide)
    · exact raisesOnly_ok f

theorem extractBits_raises {len : Nat} (buf : Vector Byte len) (total y b l : Nat) :
    RaisesOnly [.outOfRange, .invalidLength] (extractBits buf total y b l) := by
  rw [extractBits_eq]
  exact (checkField_raises total _).map _

theorem packBits_raises {len : Nat} (buf : Vector Byte len) (total y b l v : Nat) :
    RaisesOnly [.outOfRange, .invalidLength] (packBits buf total y b l v) := by
  rw [packBits_eq]
  exact (checkField_raises total _).map _

theorem sextOperand_raises (l : Nat) : RaisesOnly [.invalidLength] (sextOperand l) := by
  unfold sextOperand
  split
  · exact raisesOnly_error (by decide)
  · exact raisesOnly_ok l

theorem lookupEntry_raises (cat : List CatEntry) (i : Nat) :
    RaisesOnly [.catalogIndexOutOfRange] (lookupEntry cat i) := fun _ h =>
  List.mem_singleton.mpr (lookupEntry_error.mp h).2

theorem decodeDtcs_raises (messages : List (Vector Byte 8)) (cat : List CatEntry) :
    RaisesOnly [.badOperand, .listOverflow] (decodeDtcs messages cat) := by
  obtain ⟨-, h⟩ | ⟨_, _, -, -, h⟩ | ⟨_, _, -, -, h⟩ := decodeDtcs_cases messages cat <;> rw [h]
  · exact raisesOnly_error (by decide)
  · exact raisesOnly_error (by decide)
  · exact raisesOnly_ok _

/-- The descriptor is looked up first, then the name (R176). -/
theorem signalOperand_raises (desc : List Descriptor) (d : Nat) (name : BitVec 64) :
    RaisesOnly [.badOperand, .signalNotFound] (signalOperand desc d name) := by
  unfold signalOperand
  cases hx : descriptorOperand desc d with
  | error e =>
    obtain ⟨-, rfl⟩ := descriptorOperand_error.mp hx
    exact raisesOnly_error (by decide)
  | ok x =>
    dsimp only
    cases hg : findSignal x name with
    | error e =>
      obtain rfl := findSignal_error hg
      exact raisesOnly_error (by decide)
    | ok g => exact raisesOnly_ok (x, g)

theorem toZeroBased_raises (g : Signal) : RaisesOnly [.badDescriptor] (toZeroBased g) := fun _ h =>
  List.mem_singleton.mpr (toZeroBased_error.mp h).2

theorem signalField_raises (limit : Descriptor → Nat) (d : Nat) (s : State) :
    RaisesOnly [.badOperand, .signalNotFound, .badDescriptor, .outOfRange, .invalidLength]
      (signalField limit d s) :=
  (signalOperand_raises s.desc d s.name).bind fun p =>
    (toZeroBased_raises p.2).bind (checkField_raises (limit p.1))

/-! ### The end of a command -/

section
variable {α : Type} {s t : State} {r : Except ErrorKind α} {w : α → State}

/-- A command ends with `OK` or with the code of a kind that its checks raise (R24, R203). -/
theorem complete_code {kinds : List ErrorKind} {codes : List Nat} (hr : RaisesOnly kinds r)
    (hcodes : 0 :: kinds.map (fun e => e.code.toNat) ⊆ codes) :
    ∃ t, complete s r w = .next t ∧ readReg .status t ∈ codes := by
  cases r with
  | ok a => exact ⟨_, complete_ok s a w, hcodes List.mem_cons_self⟩
  | error e =>
    exact ⟨_, complete_error s e w, hcodes (List.mem_cons_of_mem _ (List.mem_map_of_mem (hr e rfl)))⟩

/-- A fatal code means that the error was raised, on the state before the command (R203). -/
theorem complete_fatal {e : ErrorKind} (h : complete s r w = .next t) (he : t.status = .fatal e) :
    t = raise e s := by
  obtain ⟨a, -, rfl⟩ | ⟨e', -, rfl⟩ := complete_next.mp h
  · cases he
  · cases he
    rfl

/-- A command whose checks and result do not look at `STATUS` ends alike whatever it holds. -/
theorem complete_status {w' : α → State} {c : Status}
    (hw : ∀ a, (w' a).withStatus .ok = (w a).withStatus .ok) :
    complete { s with status := c } r w' = complete s r w := by
  cases r with
  | ok a => rw [complete_ok, complete_ok, hw]
  | error e => rfl

end

/-! ### The commands -/

/-- A command that leaves a fatal code has raised it on the state before, and done nothing else (R203). -/
theorem exec_fatal {i : Instr} {s t : State} {e : ErrorKind} (h : exec i s = .next t)
    (he : t.status = .fatal e) : t = raise e s := by
  cases i with
  | lkidx => obtain ⟨j, -, rfl⟩ | ⟨-, rfl⟩ := execLkidx_cases h <;> cases he
  | _ =>
    unfold exec at h
    exact complete_fatal h he

/-- So has a word issued: it is a command, or its own error is raised (R80). -/
theorem issueCommand_fatal {w : Word} {s t : State} {e : ErrorKind} (h : issueCommand w s = .next t)
    (he : t.status = .fatal e) : t = raise e s := by
  obtain ⟨i, -, hi⟩ | ⟨-, hi⟩ := issueCommand_cases w s <;> rw [hi] at h
  · exact exec_fatal h he
  · cases h
    cases he
    rfl

/-- Settles O19: either way the code was raised on the state before. -/
theorem fatalErrorWritesOnlyTheCode : Obligations.FatalErrorWritesOnlyTheCode := by
  unfold Obligations.FatalErrorWritesOnlyTheCode
  refine ⟨fun i s t e h he => ?command, fun w s t e h he => ?word⟩
  case command =>
    obtain rfl := exec_fatal h he
    exact ⟨rfl, rfl⟩
  case word =>
    obtain rfl := issueCommand_fatal h he
    exact ⟨rfl, rfl⟩

/-- Settles O20: each row of R201 holds the codes of the kinds that the command's checks raise. -/
theorem commandsEndWithTheirCodes : Obligations.CommandsEndWithTheirCodes := by
  unfold Obligations.CommandsEndWithTheirCodes
  intro i s
  cases i with
  | nop | clrfb | enc =>
    unfold exec
    exact complete_code (kinds := []) (raisesOnly_ok _) (by simp [codesOf])
  | movmf k => exact complete_code (messageOperand_raises k) (by simp [codesOf, ErrorKind.code])
  | movfm k => exact complete_code (movfmOperand_raises k s.flen) (by simp [codesOf, ErrorKind.code])
  | xbits y b l =>
    exact complete_code (extractBits_raises s.fb s.flen.toNat y b l) (by simp [codesOf, ErrorKind.code])
  | pbits y b l =>
    exact complete_code (packBits_raises s.fb s.flen.toNat y b l s.val.toNat) (by simp [codesOf, ErrorKind.code])
  | sext l => exact complete_code (sextOperand_raises l) (by simp [codesOf, ErrorKind.code])
  | lkidx =>
    cases hl : lookupIndex s.cat s.spn s.fmi with
    | some j => exact ⟨_, exec_lkidx_found hl, by simp [readReg, Status.code, codesOf]⟩
    | none => exact ⟨_, exec_lkidx_missed hl, by simp [readReg, Status.code, codesOf]⟩
  | lkent => exact complete_code (lookupEntry_raises s.cat s.idx.toNat) (by decide)
  | dec => exact complete_code (decodeDtcs_raises (validMessages s) s.cat) (by decide)
  | xsig d =>
    have hr := (signalField_raises (loadedLength s) d s).map (fieldContents s.fb)
    rw [← xsigValue_eq] at hr
    exact complete_code hr (by simp [codesOf, ErrorKind.code])
  | sigloc d =>
    have hr := signalField_raises (fun x => x.lenBytes.toNat) d s
    rw [← siglocField_eq] at hr
    exact complete_code hr (by simp [codesOf, ErrorKind.code])
  | phys d =>
    exact complete_code (signalOperand_raises s.desc d s.name) (by simp [codesOf, ErrorKind.code])

/-- Settles O24: no check reads `STATUS`, and the status that a result was written under is replaced. -/
theorem commandsIgnoreStatus : Obligations.CommandsIgnoreStatus := by
  unfold Obligations.CommandsIgnoreStatus
  intro i s c
  cases i with
  | lkidx =>
    unfold exec execLkidx
    cases lookupIndex s.cat s.spn s.fmi <;> rfl
  | phys d =>
    refine complete_status ?_
    rintro ⟨x, g⟩
    dsimp only
    cases physicalValue g s.res <;> rfl
  | _ =>
    unfold exec
    exact complete_status fun _ => rfl

end Sys2Proof.Machine
end

section
/-! SUPPORT. Reset (spec/70_reset_and_hazards.md R220, R221, R224) and the bound on a command: one step, and always a
next state (R232). -/

namespace Sys2Proof.Machine

/-! ### Reset -/

/-- A reset from any state leaves the listed values: what it draws for the unspecified storage lies in other registers
(R220, R224). -/
theorem hostReset_afterReset (s : State) : (hostReset s).AfterReset := by
  constructor <;> rfl

/-- The machine right after reset has the listed values (R220). -/
theorem reset_afterReset : State.reset.AfterReset := by
  constructor <;> rfl

/-- Settles O13: the reset keeps the configuration memories, whatever the state it comes from. -/
theorem resetLeavesTheListedValues : Obligations.ResetLeavesTheListedValues := by
  unfold Obligations.ResetLeavesTheListedValues
  exact ⟨fun s => ⟨hostReset s, rfl, hostReset_afterReset s, hostReset_cat s, hostReset_desc s⟩,
    reset_afterReset⟩

/-- The step over a reset resets the state without that transaction. -/
theorem step_reset {s : State} {rest : List HostEvent} (h : s.pending = .reset :: rest) :
    step s = .next (hostReset { s with pending := rest }) := by
  rw [step_cons h, perform]

/-- Settles O14: the step is the reset of a state that differs in the queue alone, and a reset keeps the queue. -/
theorem stepPerformsTheReset : Obligations.StepPerformsTheReset := by
  unfold Obligations.StepPerformsTheReset
  intro s rest hp
  exact ⟨_, step_reset hp, hostReset_afterReset _, hostReset_cat _, hostReset_desc _, hostReset_pending _,
    hostReset_received _⟩

/-- `CATLEN` is wide enough for the size of a legal catalog (R22, R27). -/
theorem readReg_catlen {s : State} (h : s.cat.length ≤ 1024) : readReg .catlen s = s.cat.length := by
  rw [readReg, BitVec.toNat_ofNat]
  exact Nat.mod_eq_of_lt (by omega)

/-- `NDESC` is wide enough for the size of a legal descriptor table (R22, R27). -/
theorem readReg_ndesc {s : State} (h : s.desc.length ≤ 256) : readReg .ndesc s = s.desc.length := by
  rw [readReg, BitVec.toNat_ofNat]
  exact Nat.mod_eq_of_lt (by omega)

/-- Settles O15: the sizes are legal, and so `CATLEN` and `NDESC` show them in full. -/
theorem resetShowsTheConfiguration : Obligations.ResetShowsTheConfiguration := by
  unfold Obligations.ResetShowsTheConfiguration
  exact ⟨rfl, rfl, readReg_catlen resetStateIsLegal.cat_le, readReg_ndesc resetStateIsLegal.desc_le⟩

/-! ### A write to `CMD` -/

/-- Issuing a word always answers a next state, and leaves the queue and the list of values read as they were
(R232). -/
theorem issueCommand_isNext (w : Word) (s : State) :
    ∃ t, issueCommand w s = .next t ∧ t.pending = s.pending ∧ t.received = s.received := by
  obtain ⟨f, hf⟩ := issueCommand_effect w
  exact ⟨_, hf s, rfl, rfl⟩

/-- Settles O8: the write issues the word, and the step issues it on the state whose queue is already without it. -/
theorem everyCommandWriteHasANextState : Obligations.EveryCommandWriteHasANextState := by
  unfold Obligations.EveryCommandWriteHasANextState
  intro s w
  refine ⟨?performed, fun rest hp => ?stepped⟩
  case performed =>
    obtain ⟨t, ht, -⟩ := issueCommand_isNext w s
    exact ⟨t, (perform_cmd w s).trans ht⟩
  case stepped =>
    obtain ⟨t, ht, hpending, hreceived⟩ := issueCommand_isNext w { s with pending := rest }
    exact ⟨t, (step_cmd hp).trans ht, hpending, hreceived⟩

end Sys2Proof.Machine
end

section
/-! SUPPORT. The step with no transaction left: the CFP is idle (spec/20_memory.md R71, spec/60_exceptions.md
R212; the model's choice, log 1). -/

namespace Sys2Proof.Machine

/-- With no transaction left a step answers the same state; `step_cons` is the other case of the queue. -/
theorem step_nil {s : State} (h : s.pending = []) : step s = .next s := by
  rw [step, runNext, h]

/-- Settles O9: the empty queue is the idle case of the step. -/
theorem idleStepChangesNothing : Obligations.IdleStepChangesNothing := by
  unfold Obligations.IdleStepChangesNothing
  exact fun _ hp => step_nil hp

end Sys2Proof.Machine
end
